-- ==== Sys2Proof/Word.lean ====
section
/-! DEFINITION. The widths of SSN-CORE (00_scope R8, R9): bytes, 16-bit halves (the checksum registers and the frame fields
destination, source and length), 32-bit words (AW = 32: addresses, offsets, lengths, the command word). -/

namespace Sys2Proof

/-- A byte of the wire or of buffer memory (R8, R10). -/
abbrev Byte := BitVec 8

/-- A 16-bit value: a checksum, a destination, a source, a payload length (R8). -/
abbrev Half := BitVec 16

/-- An AW-bit value, AW = 32: an address, an offset, a length, the command word (R8, 92 D10). -/
abbrev Word := BitVec 32

end Sys2Proof
end

