-- ==== Sys2Proof/Machine/Crc.lean ====
section
/-! DEFINITION. The two checksum generators as pure functions (40_crc R100, R101), bit-serial as the spec writes them. -/

namespace Sys2Proof.Machine

/-- `ccitt_bit` (R100): the top bit is looked at before the shift, the shift drops it, a 0 enters. -/
def ccittBit (crc : Half) (inbit : Bool) : Half :=
  let top := crc.getLsbD 15
  let shifted := crc <<< 1
  if (inbit ^^ top) = true then shifted ^^^ 0x1021#16 else shifted

/-- `ccitt_byte` (R100): bit 7 of the byte first. -/
def ccittByte (crc : Half) (b : Byte) : Half :=
  [7, 6, 5, 4, 3, 2, 1, 0].foldl (fun c k => ccittBit c (b.getLsbD k)) crc

/-- The value both CRC registers start an evaluation with (00_scope R8, 10_state R33). -/
def crcInit : Half := 0xFFFF#16

/-- `ccitt16` (R100). -/
def ccitt16 (bytes : List Byte) : Half :=
  bytes.foldl ccittByte crcInit

/-- One of the eight shifts of `modbus_byte` (R101): the polynomial is XORed in when the bit shifted out is 1. -/
def modbusShift (crc : Half) : Half :=
  let out := crc.getLsbD 0
  let shifted := crc >>> 1
  if out = true then shifted ^^^ 0xA001#16 else shifted

/-- `modbus_byte` (R101): the byte goes into the low half of the register, then eight shifts. -/
def modbusByte (crc : Half) (b : Byte) : Half :=
  [1, 2, 3, 4, 5, 6, 7, 8].foldl (fun c _ => modbusShift c) (crc ^^^ b.setWidth 16)

/-- `crc_modbus` (R101). -/
def crcModbus (bytes : List Byte) : Half :=
  bytes.foldl modbusByte crcInit

end Sys2Proof.Machine
end

