-- ==== Sys2Proof/Machine/Hex.lean ====
section
/-! DEFINITION. Hexadecimal fields (30_encoding R78 to R80; the byte values of 00_scope R12). -/

namespace Sys2Proof.Machine

/-- `hexval` (R78): digits and both letter cases, nothing else. -/
def hexval (c : Byte) : Option Nat :=
  if 0x30 ≤ c.toNat ∧ c.toNat ≤ 0x39 then some (c.toNat - 0x30)
  else if 0x61 ≤ c.toNat ∧ c.toNat ≤ 0x66 then some (c.toNat - 0x61 + 10)
  else if 0x41 ≤ c.toNat ∧ c.toNat ≤ 0x46 then some (c.toNat - 0x41 + 10)
  else none

/-- `parse_hex` (R79): none if some byte is no digit, else the sum of the digits by their weights, the digit at the lowest
offset weighing most. -/
def parseHex : List Byte → Option Nat
  | [] => some 0
  | c :: rest =>
    match hexval c, parseHex rest with
    | some d, some v => some (d * 16 ^ rest.length + v)
    | _, _ => none

/-- `hexdigit` (R80): lowercase only. -/
def hexdigit (d : BitVec 4) : Byte :=
  if d.toNat ≤ 9 then BitVec.ofNat 8 (0x30 + d.toNat) else BitVec.ofNat 8 (0x61 + d.toNat - 10)

/-- `hex4` (R80). -/
def hex4 (v : Half) : List Byte :=
  [hexdigit (v.extractLsb' 12 4), hexdigit (v.extractLsb' 8 4), hexdigit (v.extractLsb' 4 4), hexdigit (v.extractLsb' 0 4)]

/-- `hex2` (R80). -/
def hex2 (v : Byte) : List Byte :=
  [hexdigit (v.extractLsb' 4 4), hexdigit (v.extractLsb' 0 4)]

end Sys2Proof.Machine
end

