-- ==== Sys2Proof/Syntax.lean ====
section
/-! DEFINITION. The instructions of SSN-CORE: one constructor for each row of spec/opcode_table.json (30_encoding R72, R74, R90). -/

namespace Sys2Proof

/-- One row of the opcode table each. The seven commands have no operand fields: their operands are the fixed registers of
10_state R21 (30_encoding R70). -/
inductive Instr
  /-- CRC.CCITT, command code 1 (40_crc R102). -/
  | crcCcitt
  /-- CRC.MODBUS, command code 2 (40_crc R103). -/
  | crcModbus
  /-- ENCODE, command code 3 (41_encoder R122). -/
  | encode
  /-- SCAN, command code 4 (42_scanner R142). -/
  | scan
  /-- PARSE, command code 5 (43_packet_decoder R162). -/
  | parse
  /-- CHECK, command code 6 (44_checksum_validator R182). -/
  | check
  /-- DECODE, command code 7 (45_stream_decode R192). -/
  | decode
  /-- The reserved word 0 (30_encoding R90). -/
  | reservedOp0
  /-- A reserved word with a bit of CMD[31:3] set: `high` is CMD[31:3], `op` is CMD[2:0] (30_encoding R90). -/
  | reservedHigh (high : BitVec 29) (op : BitVec 3)
  /-- A wire frame SSN1, the data format of 30_encoding R74: no command, but bytes that arrive from the transport. -/
  | wireFrame (dest src : Half) (typ : Byte) (payload : List Byte)
  deriving DecidableEq, Repr

end Sys2Proof
end

