-- ==== Sys2Proof/WellFormed.lean ====
section
/-! DEFINITION. Which terms of Instr are instructions of the hardware. -/

namespace Sys2Proof

/-- The largest payload of a frame: the length field has 16 bits (00_scope R8, 30_encoding R74). -/
def maxPayload : Nat := 0xFFFF

/-- Two checks. A word of the row "any of CMD[31:3] set" has a bit of CMD[31:3] set (30_encoding R90); a frame's payload
fits its 16-bit length field (10_state R23, 41_encoder R123). Every other term is an instruction (30_encoding R82). -/
def Instr.wellFormed : Instr → Bool
  | .crcCcitt => true
  | .crcModbus => true
  | .encode => true
  | .scan => true
  | .parse => true
  | .check => true
  | .decode => true
  | .reservedOp0 => true
  | .reservedHigh high _ => high != 0#29
  | .wireFrame _ _ _ payload => decide (payload.length ≤ maxPayload)

end Sys2Proof
end

