-- ==== Sys2Proof/Machine/Wire.lean ====
section
/-! DEFINITION. The wire frame and the pure functions over it: encode (41_encoder R120), find_marker (42_scanner R140),
parse_packet (43_packet_decoder R160), check (44_checksum_validator R180), decode (45_stream_decode R190). -/

namespace Sys2Proof.Machine

/-- The frame model (10_state R23): these four fields and no others (R24). -/
structure Frame where
  dest : Half
  src : Half
  typ : Byte
  payload : List Byte
  deriving DecidableEq, Repr

/-- The four header fields of a packet (43_packet_decoder R163). -/
structure Header where
  dest : Half
  src : Half
  typ : Byte
  plen : Half
  deriving DecidableEq, Repr

/-- The start marker `===ssn1` (30_encoding R74, 42_scanner R140). -/
def marker : List Byte := [0x3D#8, 0x3D#8, 0x3D#8, 0x73#8, 0x73#8, 0x6E#8, 0x31#8]

/-- `s[a..b)` of 00_scope R10. -/
def slice (bytes : List Byte) (a b : Nat) : List Byte := (bytes.drop a).take (b - a)

/-- The concatenation of 41_encoder R120, in the order of 30_encoding R74. It is `encode` only where the payload fits the length
field: encodeFrame is the function that has no value elsewhere (R123). -/
def frameBytes (f : Frame) : List Byte :=
  marker ++ hex4 f.dest ++ hex4 f.src ++ hex2 f.typ ++ hex4 (BitVec.ofNat 16 f.payload.length) ++ f.payload
    ++ hex4 (ccitt16 f.payload)

/-- `encode` (41_encoder R120): no value for a payload above 65,535 bytes (R123, 93 U2). -/
def encodeFrame (f : Frame) : Option (List Byte) :=
  if f.payload.length ≤ maxPayload then some (frameBytes f) else none

/-- The search of `find_marker`, `m` being the offset of the list's first byte. -/
def findMarkerFrom : Nat → List Byte → Option Nat
  | _, [] => none
  | m, b :: rest => if (b :: rest).take 7 = marker then some m else findMarkerFrom (m + 1) rest

/-- `find_marker` (42_scanner R140): the offset of the first occurrence of the marker. -/
def findMarker (buf : List Byte) : Option Nat := findMarkerFrom 0 buf

/-- The four results of `parse_packet` (43_packet_decoder R160). `packet` holds the header, the payload, the declared
checksum (absent when the trailer is not hexadecimal, R168) and the offset after the trailer. -/
inductive PacketResult
  | waitHeader
  | errHex
  | waitBody (h : Header)
  | packet (h : Header) (payload : List Byte) (decl : Option Half) (next : Nat)
  deriving DecidableEq, Repr

/-- The four fields of the 14-byte header, read positionally (43_packet_decoder R163); none if one of them is malformed (R165). -/
def parseHeader (t : List Byte) : Option Header :=
  match parseHex (slice t 0 4), parseHex (slice t 4 8), parseHex (slice t 8 10), parseHex (slice t 10 14) with
  | some d, some s, some ty, some n =>
    some ⟨BitVec.ofNat 16 d, BitVec.ofNat 16 s, BitVec.ofNat 8 ty, BitVec.ofNat 16 n⟩
  | _, _, _, _ => none

/-- The declared checksum of a trailer (43_packet_decoder R168). -/
def parseTrailer (t : List Byte) : Option Half := (parseHex t).map (BitVec.ofNat 16)

/-- `parse_packet` (43_packet_decoder R160): header presence, header syntax, body presence, in this order (R164), with
`plen + 4` exact (R166). -/
def parsePacket (t : List Byte) : PacketResult :=
  if t.length < 14 then .waitHeader
  else
    match parseHeader t with
    | none => .errHex
    | some h =>
      if t.length - 14 < h.plen.toNat + 4 then .waitBody h
      else
        .packet h (slice t 14 (14 + h.plen.toNat)) (parseTrailer (slice t (14 + h.plen.toNat) (18 + h.plen.toNat)))
          (18 + h.plen.toNat)

/-- `check` (44_checksum_validator R180): the computed checksum, and whether it equals the declared one. -/
def checkPayload (p : List Byte) (decl : Half) : Half × Bool := (ccitt16 p, decide (ccitt16 p = decl))

/-- The outcomes of `decode` (45_stream_decode R190), each with what the function returns beside the remainder offset. -/
inductive StreamResult
  | waitMarker
  | waitHeader (m : Nat)
  | errHex (m : Nat)
  | waitBody (m : Nat) (h : Header)
  | errCrc (m : Nat) (h : Header) (decl : Option Half) (computed : Half)
  | frame (m : Nat) (h : Header) (payload : List Byte) (computed : Half) (next : Nat)
  deriving DecidableEq, Repr

/-- `decode` (45_stream_decode R190): steps 1 to 7. -/
def decodeStream (buf : List Byte) : StreamResult :=
  match findMarker buf with
  | none => .waitMarker
  | some m =>
    match parsePacket (buf.drop (m + 7)) with
    | .waitHeader => .waitHeader m
    | .errHex => .errHex m
    | .waitBody h => .waitBody m h
    | .packet h payload decl nx =>
      if decl = some (ccitt16 payload) then .frame m h payload (ccitt16 payload) (m + 7 + nx)
      else .errCrc m h decl (ccitt16 payload)

/-- The remainder offset `next` of `decode` (R190): nothing is consumed while waiting (R194), the marker is skipped after a
failed attempt (R195), the frame is consumed on success. -/
def remainderOffset : StreamResult → Nat
  | .waitMarker => 0
  | .waitHeader _ => 0
  | .errHex m => m + 7
  | .waitBody _ _ => 0
  | .errCrc m _ _ _ => m + 7
  | .frame _ _ _ _ next => next

end Sys2Proof.Machine
end

