-- ==== Sys2Proof/Decode.lean ====
section
/-! DEFINITION. The decoder and, after it, the encoder. There are two encodings (30_encoding): the 32-bit command word the host
writes to CMD (R70, R72, R90), and the wire frame (R74). They never compete for the same bits: command words come through the
register CMD alone, and bytes of memory or of the wire are never read as commands (20_memory R62). -/

namespace Sys2Proof

/-- What can be decoded: a word written to CMD, or bytes of the wire. -/
inductive Encoded
  | command (w : Word)
  | wire (bytes : List Byte)
  deriving DecidableEq, Repr

/-- Why bytes of the wire are not exactly one frame. -/
inductive DecodeError
  /-- no marker in the bytes -/
  | noMarker
  /-- a marker, but not at the first byte -/
  | markerNotFirst
  /-- fewer than 14 bytes after the marker -/
  | headerIncomplete
  /-- a header byte that is not a hexadecimal digit -/
  | headerNotHex
  /-- payload or trailer not completely there -/
  | bodyIncomplete
  /-- the trailer does not declare the payload's checksum -/
  | checksumMismatch
  /-- bytes after the trailer -/
  | bytesAfterFrame
  deriving DecidableEq, Repr

/-- An instruction, or the reason why there is none. -/
inductive Decoded
  | instr (i : Instr)
  | rejected (e : DecodeError)
  deriving DecidableEq, Repr

/-- The command a word written to CMD stands for (30_encoding R70, R72, R90). CMD[31:3] is looked at first. Every word has one. -/
def decodeCommand (w : Word) : Instr :=
  if w.extractLsb' 3 29 ≠ 0#29 then .reservedHigh (w.extractLsb' 3 29) (w.extractLsb' 0 3)
  else
    match (w.extractLsb' 0 3).toNat with
    | 1 => .crcCcitt
    | 2 => .crcModbus
    | 3 => .encode
    | 4 => .scan
    | 5 => .parse
    | 6 => .check
    | 7 => .decode
    | _ => .reservedOp0

/-- Bytes that are exactly one wire frame (30_encoding R74), either letter case (R84). -/
def decodeWire (bytes : List Byte) : Decoded :=
  match Machine.decodeStream bytes with
  | .waitMarker => .rejected .noMarker
  | .waitHeader m => .rejected (if m = 0 then .headerIncomplete else .markerNotFirst)
  | .errHex m => .rejected (if m = 0 then .headerNotHex else .markerNotFirst)
  | .waitBody m _ => .rejected (if m = 0 then .bodyIncomplete else .markerNotFirst)
  | .errCrc m _ _ _ => .rejected (if m = 0 then .checksumMismatch else .markerNotFirst)
  | .frame m h payload _ next =>
    if m = 0 then
      if next = bytes.length then .instr (.wireFrame h.dest h.src h.typ payload) else .rejected .bytesAfterFrame
    else .rejected .markerNotFirst

/-- The decoder, total on every word and on any bytes. -/
def decode : Encoded → Decoded
  | .command w => .instr (decodeCommand w)
  | .wire bytes => decodeWire bytes

/-- The encoder (30_encoding R72, R90; 41_encoder R120). It has a value for the well-formed instructions alone: none for a
frame whose payload is oversized (41_encoder R123), none for a reserved word without a bit of CMD[31:3]. -/
def encode : Instr → Option Encoded
  | .crcCcitt => some (.command 1#32)
  | .crcModbus => some (.command 2#32)
  | .encode => some (.command 3#32)
  | .scan => some (.command 4#32)
  | .parse => some (.command 5#32)
  | .check => some (.command 6#32)
  | .decode => some (.command 7#32)
  | .reservedOp0 => some (.command 0#32)
  | .reservedHigh high op => if high = 0#29 then none else some (.command (high ++ op))
  | .wireFrame dest src typ payload => (Machine.encodeFrame ⟨dest, src, typ, payload⟩).map .wire

/-- The bytes of a number, least significant byte first, as spec/opcode_table.json numbers an instruction's bits. -/
def bytesOfNat : Nat → Nat → List Byte
  | 0, _ => []
  | n + 1, w => BitVec.ofNat 8 w :: bytesOfNat n (w / 256)

/-- The instruction input whose bits are `w`, numbered as the opcode table numbers them: a command word has 32 bits, so a
longer one can only be a wire frame (log 16). -/
def tableEncoded (nbits w : Nat) : Encoded :=
  if nbits ≤ 32 then .command (BitVec.ofNat 32 w) else .wire (bytesOfNat (nbits / 8) w)

/-- What the decoder reads from an instruction whose bits are `w` in the opcode table's numbering. -/
def decodeTableWord (nbits w : Nat) : Option Instr :=
  match decode (tableEncoded nbits w) with
  | .instr i => some i
  | .rejected _ => none

end Sys2Proof
end

