-- ==== Sys2Proof/Config.lean ====
section
/-! DEFINITION. The free values: what the spec leaves open and no proof may see (93_implementation_defined). Each is an opaque
function applied to the counter freeIdx of State. What an implementation fixes once, MEM_SIZE, is the field memSize of State. -/

namespace Sys2Proof

/-- FREE VALUE (log 3). Whether the block finishes its command before the host's next access. The spec gives a command no
duration (70_reset R280, 92 D22). -/
opaque Config.blockFirst : Nat → Bool

/-- FREE VALUE (log 4). What the host reads from a result register while BUSY (10_state R26, 93 U6). -/
opaque Config.busyRead : Nat → Word

/-- FREE VALUE (log 5). Whether byte `j` of its output range had been written when a reset cut off an ENCODE
(70_reset R262, 93 U8). The first argument is the counter, the second is `j`. -/
opaque Config.resetKept : Nat → Nat → Bool

end Sys2Proof
end

