-- ==== Sys2Proof/Machine/State.lean ====
section
/-! DEFINITION. The state of one SSN-CORE and its host (10_state R20, 20_memory R50), as plain data, and the reset state. -/

namespace Sys2Proof.Machine

/-- The operand registers 2 to 8 (10_state R21). -/
structure Operands where
  base : Word
  len : Word
  dest : Half
  src : Half
  typ : Byte
  crc : Half
  outBase : Word
  deriving DecidableEq, Repr

/-- The result registers 9 to 18 (10_state R22). -/
structure Results where
  dest : Half
  src : Half
  typ : Byte
  plen : Half
  poff : Word
  crcDecl : Half
  crcCalc : Half
  mpos : Word
  next : Word
  outlen : Word
  deriving DecidableEq, Repr

/-- The outcome codes (10_state R31). Codes 9 to 15 do not exist. -/
inductive Code
  | ok
  | waitMarker
  | waitHeader
  | waitBody
  | errHex
  | errCrc
  | errOversize
  | errOperand
  | errCmd
  deriving DecidableEq, Repr

/-- The working state (10_state R33) and the command word latched at start (R27). It exists only while a command executes
(R20 (e)), and a step shows it only as it stands at command start: its later values live inside the one step that runs the
command (log 2, log 8). -/
structure Working where
  command : Word
  ccitt : Half
  modbus : Half
  bit : BitVec 3
  byteIndex : Word
  cursor : Word
  marker : Word
  header : Header
  decl : Half
  deriving DecidableEq, Repr

/-- The two-state sequencer (10_state R27). It is also STATUS.BUSY. -/
inductive Sequencer
  | idle
  | busy (w : Working)
  deriving DecidableEq, Repr

/-- The 19 registers, by name (10_state R21, R22, R29, R30). -/
inductive Reg
  | cmd
  | status
  | opBase
  | opLen
  | opDest
  | opSrc
  | opType
  | opCrc
  | outBase
  | rDest
  | rSrc
  | rType
  | rPlen
  | rPoff
  | rCrcDecl
  | rCrcCalc
  | rMpos
  | rNext
  | rOutlen
  deriving DecidableEq, Repr

/-- One access of the host (00_scope R15, 60_exceptions R249). The first four and `wait` are the notation of 95_test_vectors. -/
inductive HostAccess
  /-- `WR n, v` -/
  | writeReg (n : Nat) (v : Word)
  /-- `RD n` -/
  | readReg (n : Nat)
  /-- `MEM a: bytes` -/
  | writeMem (a : Nat) (bytes : List Byte)
  /-- the host reads `n` bytes of buffer memory from `a` (20_memory R50) -/
  | readMem (a n : Nat)
  /-- `WAIT`: reads STATUS until DONE = 1 -/
  | wait
  /-- received bytes are appended to the decode buffer (20_memory R51) -/
  | receive (bytes : List Byte)
  /-- the platform applies reset (70_reset R260) -/
  | reset
  deriving DecidableEq, Repr

/-- What one read of the host returned. -/
inductive Reply
  | reg (n : Nat) (v : Word)
  | bytes (a : Nat) (v : List Byte)
  deriving DecidableEq, Repr

/-- Buffer memory (20_memory R50): listed bytes by address, in the canonical form of Memory.wf. -/
abbrev Memory := List Host.Cell

/-- The whole machine. -/
structure State where
  /-- MEM_SIZE, the open parameter of 20_memory R50. No step changes it. -/
  memSize : Nat
  /-- buffer memory -/
  mem : Memory
  /-- operand registers -/
  op : Operands
  /-- result registers -/
  res : Results
  /-- STATUS.DONE -/
  done : Bool
  /-- STATUS.CODE -/
  code : Code
  /-- STATUS.DECLBAD -/
  declbad : Bool
  /-- the sequencer, STATUS.BUSY, and the working state while BUSY -/
  seq : Sequencer
  /-- the host's accesses still to come, oldest first (the model's own, log 9) -/
  program : List HostAccess
  /-- what the host's reads returned, oldest first (the model's own, log 9) -/
  replies : List Reply
  /-- counter the free values of Config are applied to (the model's own, log 3) -/
  freeIdx : Nat
  deriving DecidableEq, Repr

/-- Why a step can end in a fault. All are moves of the host that the spec excludes; no command raises one (60_exceptions R238). -/
inductive Fault
  /-- Raised by a host access to a register number above 18: no such register exists (20_memory R59). Safe. -/
  | noSuchRegister (n : Nat)
  /-- Raised by a host access to memory beyond MEM_SIZE: no such byte exists (20_memory R50). Safe. -/
  | noSuchAddress (a n : Nat)
  /-- Raised by a host access, or an arriving frame, that touches a range in use by the running command (20_memory R58; 93 U5:
  the host has no such move). Safe. -/
  | hostTouchesRange (a n : Nat)
  deriving DecidableEq, Repr

/-- Why an instruction can have no meaning. -/
inductive Refusal
  /-- Raised by an arm of exec without a meaning; there is none left. Safe. -/
  | notModelled (mnemonic : String)
  /-- Raised by execWireFrame for a payload above 65,535 bytes, which no frame has (41_encoder R123, 93 U2). Safe. -/
  | noSuchFrame
  deriving DecidableEq, Repr

/-- All operand registers 0 (10_state R35). -/
def Operands.zero : Operands := ⟨0#32, 0#32, 0#16, 0#16, 0#8, 0#16, 0#32⟩

/-- All result registers 0 (10_state R26, R35). -/
def Results.zero : Results := ⟨0#16, 0#16, 0#8, 0#16, 0#32, 0#16, 0#16, 0#32, 0#32, 0#32⟩

/-- After reset (10_state R35): every register 0, IDLE, memory as nobody has written it. MEM_SIZE is open; 2^32 is the
model's choice (log 6). The host has no accesses to come (log 9, log 16). -/
def State.reset : State where
  memSize := 2 ^ 32
  mem := []
  op := Operands.zero
  res := Results.zero
  done := false
  code := .ok
  declbad := false
  seq := .idle
  program := []
  replies := []
  freeIdx := 0

end Sys2Proof.Machine
end

