-- ==== Sys2Proof/Machine/Flags.lean ====
section
/-! DEFINITION. STATUS and its fields (10_state R30, R31), the sequencer's two states (R27), and the diagnostic event
(60_exceptions R236). -/

namespace Sys2Proof.Machine

/-- The number of an outcome code (10_state R31). -/
def Code.num : Code → BitVec 4
  | .ok => 0#4
  | .waitMarker => 1#4
  | .waitHeader => 2#4
  | .waitBody => 3#4
  | .errHex => 4#4
  | .errCrc => 5#4
  | .errOversize => 6#4
  | .errOperand => 7#4
  | .errCmd => 8#4

/-- STATUS.BUSY (10_state R27, R30). -/
def busy (s : State) : Bool :=
  match s.seq with
  | .idle => false
  | .busy _ => true

/-- The word a read of STATUS returns (10_state R30): from bit 31 down, 23 reserved bits, DECLBAD, CODE, 2 reserved bits,
DONE, BUSY. -/
def statusWord (s : State) : Word :=
  0#23 ++ BitVec.ofBool s.declbad ++ s.code.num ++ 0#2 ++ BitVec.ofBool s.done ++ BitVec.ofBool (busy s)

/-- The diagnostic event's tuple (60_exceptions R236). -/
structure Event where
  code : Code
  declbad : Bool
  dest : Half
  src : Half
  mpos : Word
  deriving DecidableEq, Repr

/-- The tuple as it stands in a state. -/
def eventOf (s : State) : Event := ⟨s.code, s.declbad, s.res.dest, s.res.src, s.res.mpos⟩

/-- The codes an event is emitted for, 1 to 5 (60_exceptions R236). -/
def Code.isDiagnostic (c : Code) : Bool := decide (1 ≤ c.num.toNat ∧ c.num.toNat ≤ 5)

/-- The commands an event is emitted for (60_exceptions R236). -/
def emitsEvents : Instr → Bool
  | .parse => true
  | .check => true
  | .decode => true
  | _ => false

/-- The diagnostic event at the finish of command `i` (60_exceptions R236). -/
def diagnosticEvent (i : Instr) (s : State) : Option Event :=
  if (emitsEvents i && s.code.isDiagnostic) = true then some (eventOf s) else none

end Sys2Proof.Machine
end

