-- ==== Sys2Proof/Machine/Ops.lean ====
section
/-! DEFINITION. Named operations on memory and on the registers: bytes of buffer memory (00_scope R13, 20_memory R50, R52),
command start (10_state R41) and finish (R40), which stands where other machines take an exception (60_exceptions R234, R238). -/

namespace Sys2Proof.Machine

/-- What a byte of memory that nobody has written reads as: 0x00. DESIGN CHOICE (log 7), unsafe: the spec leaves the contents
unspecified (10_state R35). -/
def Memory.unwritten : Byte := 0#8

/-- `MemRead(addr, 1)` (00_scope R13). -/
def Memory.read : Memory → Nat → Byte
  | [], _ => Memory.unwritten
  | (a, b) :: rest, x => if a = x then b else Memory.read rest x

/-- `MemWrite(addr, 1, v)` (00_scope R13), keeping the canonical form. -/
def Memory.write : Memory → Nat → Byte → Memory
  | [], x, v => if v = Memory.unwritten then [] else [(x, v)]
  | (a, b) :: rest, x, v =>
    if x < a then (if v = Memory.unwritten then (a, b) :: rest else (x, v) :: (a, b) :: rest)
    else if x = a then (if v = Memory.unwritten then rest else (x, v) :: rest)
    else (a, b) :: Memory.write rest x v

/-- `Mem[a..a+n)` (00_scope R13): lower address first (20_memory R52). -/
def Memory.readBytes (m : Memory) : Nat → Nat → List Byte
  | _, 0 => []
  | a, n + 1 => m.read a :: Memory.readBytes m (a + 1) n

/-- The bytes at `a`, `a + 1`, ... (20_memory R57). -/
def Memory.writeBytes : Memory → Nat → List Byte → Memory
  | m, _, [] => m
  | m, a, b :: rest => Memory.writeBytes (m.write a b) (a + 1) rest

/-- As writeBytes, but only the bytes whose index (counted from `j`) `kept` picks. For an ENCODE cut off by a reset
(70_reset R262). -/
def Memory.writeSome (kept : Nat → Bool) : Nat → Memory → Nat → List Byte → Memory
  | _, m, _, [] => m
  | j, m, a, b :: rest =>
    Memory.writeSome kept (j + 1) (if kept j = true then m.write a b else m) (a + 1) rest

/-- Every listed address is at least `lo`, and they rise strictly. -/
def Memory.risingFrom : Nat → Memory → Bool
  | _, [] => true
  | lo, (a, b) :: rest => decide (lo ≤ a) && (b != Memory.unwritten) && Memory.risingFrom (a + 1) rest

/-- The canonical form: addresses strictly rising, no entry equal to what an unlisted address reads as. -/
def Memory.wf (m : Memory) : Bool := Memory.risingFrom 0 m

/-- Buffer memory replaced. -/
def setMem (m : Memory) (s : State) : State := { s with mem := m }

/-- Result registers replaced. -/
def setRes (r : Results) (s : State) : State := { s with res := r }

/-- STATUS.DECLBAD written. -/
def setDeclbad (b : Bool) (s : State) : State := { s with declbad := b }

/-- One more answer to the host. -/
def addReply (r : Reply) (s : State) : State := { s with replies := s.replies ++ [r] }

/-- A free value has been taken. -/
def takeFree (s : State) : State := { s with freeIdx := s.freeIdx + 1 }

/-- The working state a command starts with (10_state R33): both CRC registers 0xFFFF, the byte index 0, the bit counter at
bit 7; cursor, marker offset and fields 0 (DESIGN CHOICE, log 8, safe: nothing reads them). -/
def Working.init (w : Word) : Working where
  command := w
  ccitt := crcInit
  modbus := crcInit
  bit := 7#3
  byteIndex := 0#32
  cursor := 0#32
  marker := 0#32
  header := ⟨0#16, 0#16, 0#8, 0#16⟩
  decl := 0#16

/-- What command start clears (10_state R26, R41): the result registers, DONE, CODE, DECLBAD. -/
def beginCommand (s : State) : State := { s with res := Results.zero, done := false, code := .ok, declbad := false }

/-- Command start (10_state R41) up to the command's own work: BUSY, the word latched, the results cleared. -/
def startCommand (w : Word) (s : State) : State := { beginCommand s with seq := .busy (Working.init w) }

/-- `finish c` (10_state R40): CODE, BUSY 0, DONE 1. The working state is gone. -/
def finish (c : Code) (s : State) : State := { s with code := c, seq := .idle, done := true }

end Sys2Proof.Machine
end

