-- ==== Sys2Proof/Machine/Operands.lean ====
section
/-! DEFINITION. The operand forms: the input range and its bytes (10_state R21, 20_memory R55, R57), ENCODE's output range
(20_memory R55), the register numbers and what the host reads and writes under them (10_state R21, R22, R25, R26, R29, R30). -/

namespace Sys2Proof.Machine

/-- `IN = Mem[OP_BASE .. OP_BASE+OP_LEN)` (10_state R21). -/
def inputBytes (s : State) : List Byte := s.mem.readBytes s.op.base.toNat s.op.len.toNat

/-- The range check of 20_memory R55, in exact arithmetic. -/
def inputFits (s : State) : Bool := decide (s.op.base.toNat + s.op.len.toNat ≤ s.memSize)

/-- The length of ENCODE's output range (20_memory R54). -/
def outputLength (s : State) : Nat := 25 + s.op.len.toNat

/-- ENCODE's output range lies inside memory (20_memory R55). -/
def outputFits (s : State) : Bool := decide (s.op.outBase.toNat + outputLength s ≤ s.memSize)

/-- `[a, a+n)` and `[b, b+m)` have an address in common. An empty range has none with anything (20_memory R55). -/
def overlap (a n b m : Nat) : Bool := decide (max a b < min (a + n) (b + m))

/-- ENCODE's two ranges share an address (20_memory R55). -/
def rangesOverlap (s : State) : Bool :=
  overlap s.op.outBase.toNat (outputLength s) s.op.base.toNat s.op.len.toNat

/-- A command's work after the range check (20_memory R55): ERR_OPERAND without a memory access, or `work` on the input bytes. -/
def withInput (s : State) (work : State → List Byte → State) : State :=
  if inputFits s = true then work s (inputBytes s) else finish .errOperand s

/-- The register with number `n` (10_state R21, R22, R29, R30). -/
def Reg.ofNumber : Nat → Option Reg
  | 0 => some .cmd
  | 1 => some .status
  | 2 => some .opBase
  | 3 => some .opLen
  | 4 => some .opDest
  | 5 => some .opSrc
  | 6 => some .opType
  | 7 => some .opCrc
  | 8 => some .outBase
  | 9 => some .rDest
  | 10 => some .rSrc
  | 11 => some .rType
  | 12 => some .rPlen
  | 13 => some .rPoff
  | 14 => some .rCrcDecl
  | 15 => some .rCrcCalc
  | 16 => some .rMpos
  | 17 => some .rNext
  | 18 => some .rOutlen
  | _ => none

/-- The result registers (10_state R22). -/
def Reg.isResult : Reg → Bool
  | .cmd | .status | .opBase | .opLen | .opDest | .opSrc | .opType | .opCrc | .outBase => false
  | .rDest | .rSrc | .rType | .rPlen | .rPoff | .rCrcDecl | .rCrcCalc | .rMpos | .rNext | .rOutlen => true

/-- The value a register holds, zero-extended (10_state R25); CMD reads 0 (R29). -/
def regValue (r : Reg) (s : State) : Word :=
  match r with
  | .cmd => 0#32
  | .status => statusWord s
  | .opBase => s.op.base
  | .opLen => s.op.len
  | .opDest => s.op.dest.setWidth 32
  | .opSrc => s.op.src.setWidth 32
  | .opType => s.op.typ.setWidth 32
  | .opCrc => s.op.crc.setWidth 32
  | .outBase => s.op.outBase
  | .rDest => s.res.dest.setWidth 32
  | .rSrc => s.res.src.setWidth 32
  | .rType => s.res.typ.setWidth 32
  | .rPlen => s.res.plen.setWidth 32
  | .rPoff => s.res.poff
  | .rCrcDecl => s.res.crcDecl.setWidth 32
  | .rCrcCalc => s.res.crcCalc.setWidth 32
  | .rMpos => s.res.mpos
  | .rNext => s.res.next
  | .rOutlen => s.res.outlen

/-- An operand register takes the low bits of the value written (10_state R25); the other registers take nothing here
(R26, R29, R30). -/
def setOperand (r : Reg) (v : Word) (o : Operands) : Operands :=
  match r with
  | .opBase => { o with base := v }
  | .opLen => { o with len := v }
  | .opDest => { o with dest := v.setWidth 16 }
  | .opSrc => { o with src := v.setWidth 16 }
  | .opType => { o with typ := v.setWidth 8 }
  | .opCrc => { o with crc := v.setWidth 16 }
  | .outBase => { o with outBase := v }
  | .cmd | .status => o
  | .rDest | .rSrc | .rType | .rPlen | .rPoff | .rCrcDecl | .rCrcCalc | .rMpos | .rNext | .rOutlen => o

/-- A reserved command word (30_encoding R90). -/
def reservedWord (w : Word) : Bool := decide (w.extractLsb' 3 29 ≠ 0#29 ∨ w.extractLsb' 0 3 = 0#3)

/-- A host write to CMD (10_state R29, R41): ignored while BUSY; a reserved word starts and finishes at once (30_encoding R90);
any other word starts its command. -/
def writeCmd (w : Word) (s : State) : State :=
  if busy s = true then s
  else if reservedWord w = true then finish .errCmd (startCommand w s)
  else startCommand w s

/-- A host write to a register: CMD (10_state R29), STATUS and results ignored (R26, R30), operands ignored while BUSY (R25). -/
def writeReg (r : Reg) (v : Word) (s : State) : State :=
  match r with
  | .cmd => writeCmd v s
  | _ => if busy s = true then s else { s with op := setOperand r v s.op }

/-- A host read of a register: the value and the state after. A result register read while BUSY gives a free value
(10_state R26, log 4). -/
def readReg (r : Reg) (s : State) : Word × State :=
  if (busy s && r.isResult) = true then (Config.busyRead s.freeIdx, takeFree s) else (regValue r s, s)

end Sys2Proof.Machine
end

