-- ==== Sys2Proof/Machine/CrcCommands.lean ====
section
/-! DEFINITION. CRC.CCITT and CRC.MODBUS (40_crc R102, R103). -/

namespace Sys2Proof.Machine

/-- CRC.CCITT (40_crc R102). -/
def execCrcCcitt (s : State) : Host.Outcome State Fault Refusal :=
  .next (withInput (beginCommand s) fun t bytes => finish .ok (setRes { t.res with crcCalc := ccitt16 bytes } t))

/-- CRC.MODBUS (40_crc R103). -/
def execCrcModbus (s : State) : Host.Outcome State Fault Refusal :=
  .next (withInput (beginCommand s) fun t bytes => finish .ok (setRes { t.res with crcCalc := crcModbus bytes } t))

end Sys2Proof.Machine
end

