-- ==== Sys2Proof/Machine/Decoder.lean ====
section
/-! DEFINITION. The decoder units: SCAN (42_scanner R142), PARSE (43_packet_decoder R162), CHECK (44_checksum_validator R182)
and their composition DECODE (45_stream_decode R192). None of them writes memory (20_memory R54). -/

namespace Sys2Proof.Machine

/-- SCAN (42_scanner R142). -/
def execScan (s : State) : Host.Outcome State Fault Refusal :=
  .next (withInput (beginCommand s) fun t bytes =>
    match findMarker bytes with
    | none => finish .waitMarker t
    | some m => finish .ok (setRes { t.res with mpos := BitVec.ofNat 32 m, next := BitVec.ofNat 32 (m + 7) } t))

/-- R_DEST, R_SRC, R_TYPE, R_PLEN and R_POFF (43_packet_decoder R162, 45_stream_decode R192). -/
def Results.withHeader (r : Results) (h : Header) (poff : Nat) : Results :=
  { r with dest := h.dest, src := h.src, typ := h.typ, plen := h.plen, poff := BitVec.ofNat 32 poff }

/-- R_CRC_DECL, or STATUS.DECLBAD when the trailer did not parse (43_packet_decoder R168). -/
def setDeclared (decl : Option Half) (s : State) : State :=
  match decl with
  | some v => setRes { s.res with crcDecl := v } s
  | none => setDeclbad true s

/-- PARSE (43_packet_decoder R162). -/
def execParse (s : State) : Host.Outcome State Fault Refusal :=
  .next (withInput (beginCommand s) fun t bytes =>
    match parsePacket bytes with
    | .waitHeader => finish .waitHeader t
    | .errHex => finish .errHex t
    | .waitBody h => finish .waitBody (setRes (t.res.withHeader h 14) t)
    | .packet h _ decl next =>
      finish .ok (setDeclared decl (setRes { t.res.withHeader h 14 with next := BitVec.ofNat 32 next } t)))

/-- CHECK (44_checksum_validator R182). -/
def execCheck (s : State) : Host.Outcome State Fault Refusal :=
  .next (withInput (beginCommand s) fun t bytes =>
    finish (if (checkPayload bytes t.op.crc).2 = true then .ok else .errCrc)
      (setRes { t.res with crcCalc := (checkPayload bytes t.op.crc).1 } t))

/-- The result registers of DECODE for an outcome (45_stream_decode R192, the table), R_CRC_DECL of ERR_CRC aside. -/
def Results.ofStream (r : Results) (o : StreamResult) : Results :=
  match o with
  | .waitMarker => r
  | .waitHeader m => { r with mpos := BitVec.ofNat 32 m }
  | .errHex m => { r with mpos := BitVec.ofNat 32 m }
  | .waitBody m h => { r.withHeader h (m + 21) with mpos := BitVec.ofNat 32 m }
  | .errCrc m h _ computed => { r.withHeader h (m + 21) with mpos := BitVec.ofNat 32 m, crcCalc := computed }
  | .frame m h _ computed _ => { r.withHeader h (m + 21) with mpos := BitVec.ofNat 32 m, crcCalc := computed, crcDecl := computed }

/-- The code named like the outcome (45_stream_decode R192). -/
def StreamResult.code : StreamResult → Code
  | .waitMarker => .waitMarker
  | .waitHeader _ => .waitHeader
  | .errHex _ => .errHex
  | .waitBody _ _ => .waitBody
  | .errCrc _ _ _ _ => .errCrc
  | .frame _ _ _ _ _ => .ok

/-- DECODE (45_stream_decode R192). -/
def execDecode (s : State) : Host.Outcome State Fault Refusal :=
  .next (withInput (beginCommand s) fun t bytes =>
    let o := decodeStream bytes
    let u := setRes { t.res.ofStream o with next := BitVec.ofNat 32 (remainderOffset o) } t
    match o with
    | .errCrc _ _ decl _ => finish o.code (setDeclared decl u)
    | _ => finish o.code u)

end Sys2Proof.Machine
end

