-- ==== Sys2Proof/Machine/Encoder.lean ====
section
/-! DEFINITION. ENCODE (41_encoder R122). -/

namespace Sys2Proof.Machine

/-- The frame ENCODE is asked to encode (41_encoder R122). -/
def operandFrame (s : State) : Frame := ⟨s.op.dest, s.op.src, s.op.typ, inputBytes s⟩

/-- The checks of ENCODE in their order (41_encoder R122, R123; 60_exceptions R232). -/
def encodeCode (s : State) : Code :=
  if s.op.len.toNat > maxPayload then .errOversize
  else if inputFits s = false then .errOperand
  else if outputFits s = false then .errOperand
  else if rangesOverlap s = true then .errOperand
  else .ok

/-- The bytes ENCODE writes at OUT_BASE; none when a check fails (41_encoder R122: nothing is written on an error). -/
def encodeOutput (s : State) : List Byte :=
  match encodeCode s with
  | .ok => (encodeFrame (operandFrame s)).getD []
  | _ => []

/-- ENCODE (41_encoder R122). -/
def execEncode (s : State) : Host.Outcome State Fault Refusal :=
  let t := beginCommand s
  match encodeCode t with
  | .ok =>
    .next (finish .ok (setRes { t.res with outlen := BitVec.ofNat 32 (outputLength t), crcCalc := ccitt16 (inputBytes t) }
      (setMem (t.mem.writeBytes t.op.outBase.toNat (encodeOutput t)) t)))
  | c => .next (finish c t)

end Sys2Proof.Machine
end

