-- ==== Sys2Proof/Machine/HostInterface.lean ====
section
/-! DEFINITION. What the host does to the machine (60_exceptions R249): memory accesses with the exclusion rule of
20_memory R58, received bytes (20_memory R51), reset (70_reset R260, R262), register accesses by number; the arrival of a wire
frame; and who moves next. -/

namespace Sys2Proof.Machine

/-- The running command is ENCODE. -/
def encodeRunning (s : State) : Bool :=
  match s.seq with
  | .idle => false
  | .busy w => decide (decodeCommand w.command = .encode)

/-- `[a, a+n)` touches the output range of the running ENCODE (20_memory R58). DESIGN CHOICE (log 28), unsafe: the range counts as
in use until the command's finish, while R58 forbids the host to touch it until its read of STATUS returns DONE = 1. -/
def touchesOutput (s : State) (a n : Nat) : Bool :=
  encodeRunning s && overlap a n s.op.outBase.toNat (outputLength s)

/-- `[a, a+n)` touches the input range of the running command (20_memory R58). DESIGN CHOICE (log 28), unsafe: as for the output
range, in use until the command's finish. -/
def touchesInput (s : State) (a n : Nat) : Bool :=
  busy s && overlap a n s.op.base.toNat s.op.len.toNat

/-- The host writes bytes to memory: they must exist (20_memory R50), and lie outside the ranges in use (R58, logs 12, 28). -/
def hostStore (a : Nat) (bytes : List Byte) (s : State) : Host.Outcome State Fault Refusal :=
  if s.memSize < a + bytes.length then .fault (.noSuchAddress a bytes.length)
  else if (touchesInput s a bytes.length || touchesOutput s a bytes.length) = true then
    .fault (.hostTouchesRange a bytes.length)
  else .next (setMem (s.mem.writeBytes a bytes) s)

/-- The host reads bytes of memory: they must exist (20_memory R50), and lie outside an ENCODE's output range (R58, logs 12, 28). -/
def hostLoad (a n : Nat) (s : State) : Host.Outcome State Fault Refusal :=
  if s.memSize < a + n then .fault (.noSuchAddress a n)
  else if touchesOutput s a n = true then .fault (.hostTouchesRange a n)
  else .next (addReply (.bytes a (s.mem.readBytes a n)) s)

/-- Received bytes fit behind the decode buffer, and OP_LEN can name the longer buffer (20_memory R51, 70_reset R270). -/
def canAppend (n : Nat) (s : State) : Bool :=
  decide (s.op.base.toNat + s.op.len.toNat + n ≤ s.memSize ∧ s.op.len.toNat + n < 2 ^ 32)

/-- The host appends received bytes to the decode buffer and then increases OP_LEN (20_memory R51), the latter ignored while
BUSY (10_state R25). When there is no room it appends nothing (70_reset R270, log 11). -/
def receive (bytes : List Byte) (s : State) : Host.Outcome State Fault Refusal :=
  if canAppend bytes.length s = true then
    match hostStore (s.op.base.toNat + s.op.len.toNat) bytes s with
    | .next t => .next (writeReg .opLen (BitVec.ofNat 32 (s.op.len.toNat + bytes.length)) t)
    | .fault f => .fault f
    | .refused r => .refused r
  else .next s

/-- A wire frame arrives (30_encoding R74): no command, its bytes are appended to the decode buffer (20_memory R51) and make the
block execute nothing (R62). DESIGN CHOICE (log 10). A payload above 65,535 bytes is no frame (41_encoder R123). -/
def execWireFrame (dest src : Half) (typ : Byte) (payload : List Byte) (s : State) : Host.Outcome State Fault Refusal :=
  match encodeFrame ⟨dest, src, typ, payload⟩ with
  | some bytes => receive bytes s
  | none => .refused .noSuchFrame

/-- What a reset leaves of a running ENCODE (70_reset R262): any subset of its output bytes written (log 5). -/
def abandonCommand (s : State) : State :=
  if encodeRunning s = true then
    takeFree (setMem (Memory.writeSome (Config.resetKept s.freeIdx) 0 s.mem s.op.outBase.toNat (encodeOutput s)) s)
  else s

/-- The platform's reset (10_state R35, 70_reset R260): registers 0, IDLE, memory untouched but for an ENCODE it cuts off. -/
def resetBlock (s : State) : State :=
  { abandonCommand s with
    op := Operands.zero, res := Results.zero, done := false, code := .ok, declbad := false, seq := .idle }

/-- One access of the host. A `wait` that comes here has been answered (fetch). -/
def hostAccess (a : HostAccess) (s : State) : Host.Outcome State Fault Refusal :=
  match a with
  | .writeReg n v =>
    match Reg.ofNumber n with
    | some r => .next (writeReg r v s)
    | none => .fault (.noSuchRegister n)
  | .readReg n =>
    match Reg.ofNumber n with
    | some r => .next (addReply (.reg n (readReg r s).1) (readReg r s).2)
    | none => .fault (.noSuchRegister n)
  | .writeMem a bytes => hostStore a bytes s
  | .readMem a n => hostLoad a n s
  | .wait => .next s
  | .receive bytes => receive bytes s
  | .reset => .next (resetBlock s)

/-- What moves next. -/
inductive Turn
  /-- the block runs its command, in the given state -/
  | command (i : Instr) (s : State)
  /-- the host makes an access, in the given state -/
  | host (a : HostAccess) (s : State)
  /-- nothing: the block is idle and the host has no access, or waits for a DONE that no command will give -/
  | nothing
  deriving DecidableEq, Repr

/-- The host's next access while IDLE (10_state R27). -/
def idleTurn (s : State) : Turn :=
  match s.program with
  | [] => .nothing
  | .wait :: rest => if s.done = true then .host .wait { s with program := rest } else .nothing
  | a :: rest => .host a { s with program := rest }

/-- Who moves next (00_scope R15, 10_state R27). IDLE: the host. BUSY: the block, unless the host has an access other than
`wait` to make, and then a free value says which comes first, since a command has no duration (70_reset R280, log 3). -/
def fetch (s : State) : Turn :=
  match s.seq with
  | .idle => idleTurn s
  | .busy w =>
    match s.program with
    | [] => .command (decodeCommand w.command) s
    | .wait :: _ => .command (decodeCommand w.command) s
    | a :: rest =>
      if Config.blockFirst s.freeIdx = true then .command (decodeCommand w.command) (takeFree s)
      else .host a { takeFree s with program := rest }

/-- An instruction placed to be the next one: a command word as a started command whose DONE the host waits for, a wire frame's
bytes as the next bytes an idle block's host receives (log 16). -/
def placeInstruction (e : Encoded) (s : State) : State :=
  match e with
  | .command w => { startCommand w s with program := .wait :: s.program }
  | .wire bytes => { s with seq := .idle, program := .receive bytes :: s.program }

end Sys2Proof.Machine
end

