-- ==== Sys2Proof/Machine/Reserved.lean ====
section
/-! DEFINITION. The reserved command words (30_encoding R90): ERR_CMD with the results cleared, no memory access. -/

namespace Sys2Proof.Machine

/-- The reserved word 0 (30_encoding R90). -/
def execReservedOp0 (s : State) : Host.Outcome State Fault Refusal := .next (finish .errCmd (beginCommand s))

/-- A reserved word with a bit of CMD[31:3] set (30_encoding R90), whatever its bits are. -/
def execReservedHigh (_high : BitVec 29) (_op : BitVec 3) (s : State) : Host.Outcome State Fault Refusal :=
  .next (finish .errCmd (beginCommand s))

end Sys2Proof.Machine
end

