-- ==== Sys2Proof/Machine/Dispatch.lean ====
section
/-! DEFINITION. What each instruction does: the block's execution of a command from its start to its finish (10_state R41: one
atomic step), and the arrival of a wire frame. -/

namespace Sys2Proof.Machine

/-- One arm per row of the opcode table. -/
def exec (i : Instr) (s : State) : Host.Outcome State Fault Refusal :=
  match i with
  | .crcCcitt => Sys2Proof.Machine.execCrcCcitt s
  | .crcModbus => Sys2Proof.Machine.execCrcModbus s
  | .encode => Sys2Proof.Machine.execEncode s
  | .scan => Sys2Proof.Machine.execScan s
  | .parse => Sys2Proof.Machine.execParse s
  | .check => Sys2Proof.Machine.execCheck s
  | .decode => Sys2Proof.Machine.execDecode s
  | .reservedOp0 => Sys2Proof.Machine.execReservedOp0 s
  | .reservedHigh high op => Sys2Proof.Machine.execReservedHigh high op s
  | .wireFrame dest src typ payload => Sys2Proof.Machine.execWireFrame dest src typ payload s

end Sys2Proof.Machine
end

