-- ==== Sys2Proof/Machine/Step.lean ====
section
/-! DEFINITION. One step: the move of whoever moves next (Machine.fetch), and how an instruction is placed to be the next one. -/

namespace Sys2Proof.Machine

/-- One step of the block and its host (10_state R27, R41). -/
def step (s : State) : Host.Outcome State Fault Refusal :=
  match fetch s with
  | .command i t => exec i t
  | .host a t => hostAccess a t
  | .nothing => .next s

/-- `s` with the instruction whose bits are `w`, in the opcode table's numbering, as the next one (log 16). -/
def State.withFetchWord (s : State) (nbits w : Nat) : State := placeInstruction (tableEncoded nbits w) s

end Sys2Proof.Machine
end

