-- ==== Sys2Proof/Machine/HostPrograms.lean ====
section
/-! DEFINITION. The host-side sequences of 30_encoding R92, DRAIN and SEND, and of 45_stream_decode R193, as functions over the
block. They are host programs: nothing in the block (92 D32). Each starts from an idle block. -/

namespace Sys2Proof.Machine

/-- The frame a host reads after a DECODE that finished OK (10_state R23). -/
def deliveredFrame (s : State) : Frame :=
  ⟨s.res.dest, s.res.src, s.res.typ, s.mem.readBytes (s.op.base.toNat + s.res.poff.toNat) s.res.plen.toNat⟩

/-- What DRAIN hands on (30_encoding R92). -/
inductive Delivery
  | frame (f : Frame)
  | diagnostic (e : Event)
  deriving DecidableEq, Repr

/-- How DRAIN ends: keeping a range for later, on an operand error, or, in this rendering only, out of fuel. -/
inductive DrainEnd
  | waiting (base len : Nat)
  | operandError
  | outOfFuel
  deriving DecidableEq, Repr

/-- A run of DRAIN. -/
structure DrainRun where
  delivered : List Delivery
  ended : DrainEnd
  final : State
  deriving DecidableEq, Repr

/-- The host points OP_BASE and OP_LEN at a range (10_state R28). -/
def pointAt (base len : Nat) (s : State) : State :=
  writeReg .opLen (BitVec.ofNat 32 len) (writeReg .opBase (BitVec.ofNat 32 base) s)

/-- DRAIN (30_encoding R92), its loop bounded by a fuel. -/
def drain : Nat → Nat → Nat → State → DrainRun
  | 0, _, _, s => ⟨[], .outOfFuel, s⟩
  | fuel + 1, base, len, s =>
    match execDecode (pointAt base len s) with
    | .next t =>
      match t.code with
      | .ok =>
        let r := drain fuel (base + t.res.next.toNat) (len - t.res.next.toNat) t
        ⟨.frame (deliveredFrame t) :: r.delivered, r.ended, r.final⟩
      | .errHex | .errCrc =>
        let r := drain fuel (base + t.res.next.toNat) (len - t.res.next.toNat) t
        ⟨.diagnostic (eventOf t) :: r.delivered, r.ended, r.final⟩
      | .waitMarker | .waitHeader | .waitBody => ⟨[], .waiting base len, t⟩
      | .errOversize | .errOperand | .errCmd => ⟨[], .operandError, t⟩
    | .fault _ => ⟨[], .operandError, s⟩
    | .refused _ => ⟨[], .operandError, s⟩

/-- What the host learns from the sequence SCAN, PARSE, CHECK (45_stream_decode R193), offsets relative to the buffer's base: the
outcome, the marker offset, the four header fields, the payload offset, the declared checksum with its DECLBAD, the computed
checksum and the remainder offset, those not learnt being 0. -/
structure UnitRun where
  code : Code
  mpos : Nat
  header : Header
  poff : Nat
  decl : Half
  declbad : Bool
  crcCalc : Half
  next : Nat
  deriving DecidableEq, Repr

/-- The state a command leaves. -/
def outcomeState (o : Host.Outcome State Fault Refusal) (s : State) : State :=
  match o with
  | .next t => t
  | .fault _ => s
  | .refused _ => s

/-- The header fields in the result registers. -/
def headerOf (s : State) : Header := ⟨s.res.dest, s.res.src, s.res.typ, s.res.plen⟩

/-- No header field learnt. -/
def Header.zero : Header := ⟨0#16, 0#16, 0#8, 0#16⟩

/-- The host sequence of 45_stream_decode R193 on the buffer `[base, base+len)`. Where the trailer did not parse, CRC.CCITT on the
payload gives the computed checksum, as the rule says. -/
def unitSequence (base len : Nat) (s : State) : UnitRun :=
  let t1 := outcomeState (execScan (pointAt base len s)) s
  let m := t1.res.mpos.toNat
  let h := t1.res.next.toNat
  match t1.code with
  | .ok =>
    let t2 := outcomeState (execParse (pointAt (base + h) (len - h) t1)) t1
    let payloadAt := pointAt (base + h + 14) t2.res.plen.toNat t2
    match t2.code with
    | .ok =>
      if t2.declbad = true then
        let t3 := outcomeState (execCrcCcitt payloadAt) t2
        ⟨.errCrc, m, headerOf t2, h + t2.res.poff.toNat, 0#16, true, t3.res.crcCalc, h⟩
      else
        let t3 := outcomeState (execCheck (writeReg .opCrc (t2.res.crcDecl.setWidth 32) payloadAt)) t2
        match t3.code with
        | .ok =>
          ⟨.ok, m, headerOf t2, h + t2.res.poff.toNat, t2.res.crcDecl, false, t3.res.crcCalc, h + t2.res.next.toNat⟩
        | c => ⟨c, m, headerOf t2, h + t2.res.poff.toNat, t2.res.crcDecl, false, t3.res.crcCalc, h⟩
    | .waitBody => ⟨.waitBody, m, headerOf t2, h + t2.res.poff.toNat, 0#16, false, 0#16, 0⟩
    | .errHex => ⟨.errHex, m, Header.zero, 0, 0#16, false, 0#16, h⟩
    | c => ⟨c, m, Header.zero, 0, 0#16, false, 0#16, 0⟩
  | c => ⟨c, 0, Header.zero, 0, 0#16, false, 0#16, 0⟩

/-- What one DECODE of the same buffer tells the host. -/
def decodeRun (base len : Nat) (s : State) : UnitRun :=
  let t := outcomeState (execDecode (pointAt base len s)) s
  ⟨t.code, t.res.mpos.toNat, headerOf t, t.res.poff.toNat, t.res.crcDecl, t.declbad, t.res.crcCalc, t.res.next.toNat⟩

/-- What the host copies to its transport in SEND, after an ENCODE that finished OK (30_encoding R92). -/
def sentBytes (s : State) : List Byte := s.mem.readBytes s.op.outBase.toNat s.res.outlen.toNat

end Sys2Proof.Machine
end

