-- ==== Sys2Proof/Safety.lean ====
section
/-! DEFINITION. The terms the claims are stated in: the machine's invariant, what a command leaves alone, how a command ends,
what a marker occurrence is. -/

namespace Sys2Proof.Machine

/-- What every step keeps. It rules out the states no run reaches that the claims must not be asked about. -/
structure Inv (s : State) : Prop where
  /-- MEM_SIZE is in its range (20_memory R50). -/
  memSize_pos : 1 ≤ s.memSize
  memSize_le : s.memSize ≤ 2 ^ 32
  /-- Memory is in its canonical form, and lists no address that does not exist (20_memory R50). -/
  mem_wf : s.mem.wf = true
  mem_inside : ∀ c ∈ s.mem, c.1 < s.memSize
  /-- Until a command has finished, CODE, DECLBAD and the results read 0 (10_state R26, R30, R35, R41). -/
  cleared : s.done = false → s.res = Results.zero ∧ s.code = .ok ∧ s.declbad = false
  /-- BUSY and DONE are never both 1 (10_state R40, R41). -/
  busy_not_done : busy s = true → s.done = false
  /-- Only the seven commands are ever running (30_encoding R90). -/
  busy_command : ∀ w, s.seq = .busy w → reservedWord w.command = false
  /-- DECLBAD comes only with a PARSE that is OK or a DECODE that is ERR_CRC, and with R_CRC_DECL = 0 (43_packet_decoder R168). -/
  declbad_codes : s.declbad = true → (s.code = .ok ∨ s.code = .errCrc) ∧ s.res.crcDecl = 0#16
  /-- Outcomes that record nothing leave every result register 0 (60_exceptions R221). -/
  nothing_recorded :
    s.code = .waitMarker ∨ s.code = .errOversize ∨ s.code = .errOperand ∨ s.code = .errCmd → s.res = Results.zero
  /-- A wait consumes nothing (45_stream_decode R194). -/
  wait_consumes_nothing : s.code = .waitHeader ∨ s.code = .waitBody → s.res.next = 0#32

/-- The command has finished with code `c` (10_state R40). -/
def Finished (c : Code) (t : State) : Prop := t.code = c ∧ t.done = true ∧ t.seq = .idle

/-- Every byte of memory reads as before. -/
def SameMemory (s t : State) : Prop := ∀ a, t.mem.read a = s.mem.read a

/-- Every byte of memory outside `[a, a+n)` reads as before. -/
def SameMemoryOutside (a n : Nat) (s t : State) : Prop := ∀ x, ¬(a ≤ x ∧ x < a + n) → t.mem.read x = s.mem.read x

/-- What no command of the block writes: the operand registers (10_state R25), MEM_SIZE, and the host's own side. -/
def OperandsAndHostKept (s t : State) : Prop :=
  t.op = s.op ∧ t.memSize = s.memSize ∧ t.program = s.program ∧ t.replies = s.replies ∧ t.freeIdx = s.freeIdx

/-- Everything but memory and OP_LEN is as before (for bytes that arrive). -/
def OnlyMemoryAndLenChanged (s t : State) : Prop :=
  t.op = { s.op with len := t.op.len } ∧ t.memSize = s.memSize ∧ t.res = s.res ∧ t.done = s.done ∧ t.code = s.code ∧
    t.declbad = s.declbad ∧ t.seq = s.seq ∧ t.program = s.program ∧ t.replies = s.replies ∧ t.freeIdx = s.freeIdx

/-- The marker stands at offset `m` (42_scanner R140). -/
def MarkerAt (buf : List Byte) (m : Nat) : Prop := m + 7 ≤ buf.length ∧ slice buf m (m + 7) = marker

/-- `m` is the offset of the first marker (42_scanner R140). -/
def FirstMarkerAt (buf : List Byte) (m : Nat) : Prop := MarkerAt buf m ∧ ∀ k, k < m → ¬MarkerAt buf k

/-- A lowercase hexadecimal digit (30_encoding R80, 41_encoder R121). -/
def isLowerHexDigit (c : Byte) : Bool :=
  decide (0x30 ≤ c.toNat ∧ c.toNat ≤ 0x39) || decide (0x61 ≤ c.toNat ∧ c.toNat ≤ 0x66)

/-- An uppercase hexadecimal letter (30_encoding R81). -/
def isUpperHexLetter (c : Byte) : Bool := decide (0x41 ≤ c.toNat ∧ c.toNat ≤ 0x46)

/-- A byte with an uppercase hexadecimal letter replaced by its lowercase (30_encoding R81). -/
def lowerHexLetter (c : Byte) : Byte := if isUpperHexLetter c = true then c + 0x20#8 else c

/-- `bytes` with bit `k` of byte `j` flipped (60_exceptions R224). -/
def flipBit (bytes : List Byte) (j k : Nat) : List Byte := bytes.modify j (· ^^^ (1#8 <<< k))

/-- What the host reads under the register numbers 0 to 18, in their order (10_state R21, R22, R29, R30), zero-extended (R25). -/
def registerValues (s : State) : List Word :=
  [0#32, statusWord s, s.op.base, s.op.len, s.op.dest.setWidth 32, s.op.src.setWidth 32, s.op.typ.setWidth 32,
    s.op.crc.setWidth 32, s.op.outBase, s.res.dest.setWidth 32, s.res.src.setWidth 32, s.res.typ.setWidth 32,
    s.res.plen.setWidth 32, s.res.poff, s.res.crcDecl.setWidth 32, s.res.crcCalc.setWidth 32, s.res.mpos, s.res.next,
    s.res.outlen]

/-- The width of the operand register with number `n`, 2 to 8 (10_state R21). -/
def operandWidth (n : Nat) : Nat := if n = 4 ∨ n = 5 ∨ n = 7 then 16 else if n = 6 then 8 else 32

/-- `x` lies in the input range (10_state R21). -/
def InInput (s : State) (x : Nat) : Prop := s.op.base.toNat ≤ x ∧ x < s.op.base.toNat + s.op.len.toNat

/-- `x` lies in the output range of the ENCODE that the latched word stands for (20_memory R54, R58). -/
def InRunningOutput (k : Working) (s : State) (x : Nat) : Prop :=
  decodeCommand k.command = .encode ∧ s.op.outBase.toNat ≤ x ∧ x < s.op.outBase.toNat + 25 + s.op.len.toNat

/-- The seven commands of 30_encoding R72. -/
def isCommand (i : Instr) : Bool :=
  match i with
  | .crcCcitt => true
  | .crcModbus => true
  | .encode => true
  | .scan => true
  | .parse => true
  | .check => true
  | .decode => true
  | .reservedOp0 => false
  | .reservedHigh _ _ => false
  | .wireFrame _ _ _ _ => false

/-- ENCODE's ranges pass the checks of 20_memory R55: both inside memory, no address in common. -/
def EncodeRangesOk (s : State) : Prop :=
  s.op.base.toNat + s.op.len.toNat ≤ s.memSize ∧ s.op.outBase.toNat + 25 + s.op.len.toNat ≤ s.memSize ∧
    ∀ a, ¬((s.op.outBase.toNat ≤ a ∧ a < s.op.outBase.toNat + 25 + s.op.len.toNat) ∧
      (s.op.base.toNat ≤ a ∧ a < s.op.base.toNat + s.op.len.toNat))

end Sys2Proof.Machine
end

