-- ==== Sys2Proof/Certificates/Slice0/Obligations.lean ====
section
/-! DEFINITION. The statements about SSN-CORE, each from the spec's numbered rules, in the spec's order: reset, encodings,
hexadecimal fields, scanner, checksums, encoder, stream decoder, commands, host interface, the machine as a whole. -/

open Sys2Proof Sys2Proof.Machine

/-! ## Reset -/

/-- 10_state R35: after reset every register reads 0 and the sequencer is IDLE. -/
def Obligations.EveryRegisterReadsZeroAfterReset : Prop :=
  (∀ n r, Reg.ofNumber n = some r → regValue r State.reset = 0#32) ∧ State.reset.seq = .idle ∧ busy State.reset = false ∧
    State.reset.done = false ∧ State.reset.code.num = 0#4 ∧ State.reset.declbad = false

/-- 70_reset R260, R262: reset in any state, IDLE or BUSY. Memory is untouched; only the reset of a running ENCODE may leave
bytes of its output range with their final value, and it leaves its input range intact. -/
def Obligations.ResetClearsRegistersAndKeepsMemory : Prop :=
  ∀ s : State, s.mem.wf = true → ∃ t, hostAccess .reset s = .next t ∧
    t.op = Operands.zero ∧ t.res = Results.zero ∧ t.seq = .idle ∧ statusWord t = 0#32 ∧ t.memSize = s.memSize ∧
    t.program = s.program ∧ t.replies = s.replies ∧
    (encodeRunning s = false → SameMemory s t) ∧
    (∀ a, t.mem.read a = s.mem.read a ∨
      ∃ j, ∃ h : j < (encodeOutput s).length, a = s.op.outBase.toNat + j ∧ t.mem.read a = (encodeOutput s)[j]) ∧
    (∀ a, s.op.base.toNat ≤ a → a < s.op.base.toNat + s.op.len.toNat → t.mem.read a = s.mem.read a)

/-! ## Encodings -/

/-- 30_encoding R70, R72, R74, R90: every well-formed instruction, every operand at every value, has an encoding, and decoding it
gives the instruction back. 41_encoder R123: any other term, an oversized frame among them, has none. -/
def Obligations.DecodeInvertsEncode : Prop :=
  ∀ i : Instr, (i.wellFormed = true → ∃ e, Sys2Proof.encode i = some e ∧ Sys2Proof.decode e = .instr i) ∧
    (i.wellFormed = false → Sys2Proof.encode i = none)

/-- 30_encoding R70, R72, R90: every word written to CMD is one well-formed instruction, which encodes to that word. -/
def Obligations.EveryCommandWordIsOneInstruction : Prop :=
  ∀ w : Word, (decodeCommand w).wellFormed = true ∧ Sys2Proof.encode (decodeCommand w) = some (.command w)

/-- 30_encoding R72, R90 and R74: the words of the table, written out from the spec, and vector E1 of 95_test_vectors. -/
def Obligations.TableWordsDecodeAsWritten : Prop :=
  decodeTableWord 32 0x1 = some .crcCcitt ∧ decodeTableWord 32 0x2 = some .crcModbus ∧ decodeTableWord 32 0x3 = some .encode ∧
    decodeTableWord 32 0x4 = some .scan ∧ decodeTableWord 32 0x5 = some .parse ∧ decodeTableWord 32 0x6 = some .check ∧
    decodeTableWord 32 0x7 = some .decode ∧ decodeTableWord 32 0x0 = some .reservedOp0 ∧
    decodeTableWord 32 0x80000001 = some (.reservedHigh 0x10000000#29 1#3) ∧
    Sys2Proof.decode (.wire
      [0x3D#8, 0x3D#8, 0x3D#8, 0x73#8, 0x73#8, 0x6E#8, 0x31#8, 0x30#8, 0x30#8, 0x30#8, 0x31#8, 0x30#8, 0x30#8, 0x30#8, 0x32#8,
        0x30#8, 0x33#8, 0x30#8, 0x30#8, 0x30#8, 0x35#8, 0x68#8, 0x65#8, 0x6C#8, 0x6C#8, 0x6F#8, 0x64#8, 0x32#8, 0x36#8, 0x65#8])
      = .instr (.wireFrame 1#16 2#16 3#8 [0x68#8, 0x65#8, 0x6C#8, 0x6C#8, 0x6F#8])

/-! ## Hexadecimal fields -/

/-- 30_encoding R81: parsing inverts rendering; rendering inverts parsing up to letter case; rendering is injective, parsing is not. -/
def Obligations.HexFieldsRoundTrip : Prop :=
  (∀ v : Half, parseHex (hex4 v) = some v.toNat) ∧ (∀ v : Byte, parseHex (hex2 v) = some v.toNat) ∧
    (∀ (t : List Byte) (v : Nat), t.length = 4 → parseHex t = some v →
      hex4 (BitVec.ofNat 16 v) = t.map lowerHexLetter ∧
      (hex4 (BitVec.ofNat 16 v) = t ↔ ∀ c ∈ t, isUpperHexLetter c = false)) ∧
    (∀ v w : Half, hex4 v = hex4 w → v = w) ∧ (∀ v w : Byte, hex2 v = hex2 w → v = w) ∧
    parseHex [0x30#8, 0x30#8, 0x46#8, 0x46#8] = some 255 ∧ parseHex [0x30#8, 0x30#8, 0x66#8, 0x66#8] = some 255

/-! ## Scanner -/

/-- 42_scanner R140: find_marker gives the least offset at which the marker stands, and none when it stands nowhere. -/
def Obligations.ScannerFindsTheFirstMarker : Prop :=
  ∀ buf : List Byte, (∀ m, findMarker buf = some m ↔ FirstMarkerAt buf m) ∧
    (findMarker buf = none ↔ ∀ m, ¬MarkerAt buf m)

/-- 42_scanner R145: bytes appended later never change which marker is first, and a marker they complete begins at most 6
bytes before the old end. -/
def Obligations.MarkerStableUnderAppending : Prop :=
  ∀ buf t : List Byte, (∀ m, findMarker buf = some m → findMarker (buf ++ t) = some m) ∧
    (∀ m, findMarker buf = none → findMarker (buf ++ t) = some m → buf.length ≤ m + 6)

/-- 30_encoding R85, 42_scanner R144: markers stand at least 7 bytes apart; scanning on at `m + 7` loses none, scanning on at
any offset up to `m` finds the same one. -/
def Obligations.ScanningOnAfterAMarkerLosesNone : Prop :=
  ∀ (buf : List Byte) (m : Nat), findMarker buf = some m →
    (∀ k, MarkerAt buf k → m < k → m + 7 ≤ k) ∧
    (∀ j, findMarker (buf.drop (m + 7)) = some j ↔
      MarkerAt buf (m + 7 + j) ∧ ∀ k, m < k → k < m + 7 + j → ¬MarkerAt buf k) ∧
    (∀ k, k ≤ m → findMarker (buf.drop k) = some (m - k))

/-! ## Checksums -/

/-- 40_crc R105: both checksums continue byte by byte from the register value. -/
def Obligations.ChecksumsContinueFromTheRegister : Prop :=
  ∀ s t : List Byte, ccitt16 (s ++ t) = t.foldl ccittByte (ccitt16 s) ∧
    Machine.crcModbus (s ++ t) = t.foldl modbusByte (Machine.crcModbus s)

/-- 40_crc R107: appending its checksum to the data drives each register to 0, high byte first for CCITT, low byte first for
Modbus. -/
def Obligations.ChecksumResidueIsZero : Prop :=
  ∀ s : List Byte,
    ccitt16 (s ++ [(ccitt16 s).extractLsb' 8 8, (ccitt16 s).extractLsb' 0 8]) = 0#16 ∧
    Machine.crcModbus (s ++ [(Machine.crcModbus s).extractLsb' 0 8, (Machine.crcModbus s).extractLsb' 8 8]) = 0#16

/-- 40_crc R104 (a), R108, R109 and vectors V3, V13: empty input, the two traces' last lines, the nine digits. -/
def Obligations.TracedChecksumValues : Prop :=
  ccitt16 [] = 0xFFFF#16 ∧ Machine.crcModbus [] = 0xFFFF#16 ∧ ccitt16 [0x41#8] = 0xB915#16 ∧
    Machine.crcModbus [0x41#8] = 0x707F#16 ∧
    ccitt16 [0x31#8, 0x32#8, 0x33#8, 0x34#8, 0x35#8, 0x36#8, 0x37#8, 0x38#8, 0x39#8] = 0x29B1#16 ∧
    Machine.crcModbus [0x31#8, 0x32#8, 0x33#8, 0x34#8, 0x35#8, 0x36#8, 0x37#8, 0x38#8, 0x39#8] = 0x4B37#16

/-! ## Encoder -/

/-- 41_encoder R120, 30_encoding R74: where each field of an encoding stands, its length, its lowercase digits, and that an
oversized payload has none. -/
def Obligations.EncodedFrameLayout : Prop :=
  ∀ f : Frame,
    (maxPayload < f.payload.length → encodeFrame f = none) ∧
    (f.payload.length ≤ maxPayload → ∃ b, encodeFrame f = some b ∧ b.length = 25 + f.payload.length ∧
      slice b 0 7 = marker ∧ slice b 7 11 = hex4 f.dest ∧ slice b 11 15 = hex4 f.src ∧ slice b 15 17 = hex2 f.typ ∧
      slice b 17 21 = hex4 (BitVec.ofNat 16 f.payload.length) ∧ slice b 21 (21 + f.payload.length) = f.payload ∧
      slice b (21 + f.payload.length) (25 + f.payload.length) = hex4 (ccitt16 f.payload) ∧
      (∀ c ∈ slice b 7 21, isLowerHexDigit c = true) ∧
      (∀ c ∈ slice b (21 + f.payload.length) (25 + f.payload.length), isLowerHexDigit c = true))

/-- 41_encoder R121: two frames differ exactly when their encodings differ. -/
def Obligations.DifferentFramesEncodeDifferently : Prop :=
  ∀ (f g : Frame) (b : List Byte), encodeFrame f = some b → encodeFrame g = some b → f = g

/-- 41_encoder R125: every frame, whatever its payload bytes, decodes from its encoding with marker offset 0 and an empty
remainder. -/
def Obligations.EveryFrameRoundTrips : Prop :=
  ∀ f : Frame, f.payload.length ≤ maxPayload → ∃ b, encodeFrame f = some b ∧
    decodeStream b = .frame 0 ⟨f.dest, f.src, f.typ, BitVec.ofNat 16 f.payload.length⟩ f.payload (ccitt16 f.payload)
      (25 + f.payload.length) ∧
    25 + f.payload.length = b.length

/-! ## Stream decoder -/

/-- 45_stream_decode R198: two frames back to back decode in order, with the final remainder empty. -/
def Obligations.BackToBackFramesDecodeInOrder : Prop :=
  ∀ (f g : Frame) (b c : List Byte), encodeFrame f = some b → encodeFrame g = some c →
    decodeStream (b ++ c) = .frame 0 ⟨f.dest, f.src, f.typ, BitVec.ofNat 16 f.payload.length⟩ f.payload (ccitt16 f.payload)
      b.length ∧
    decodeStream ((b ++ c).drop b.length) = .frame 0 ⟨g.dest, g.src, g.typ, BitVec.ofNat 16 g.payload.length⟩ g.payload
      (ccitt16 g.payload) c.length ∧
    ((b ++ c).drop b.length).drop c.length = []

/-- 45_stream_decode R196: a wait consumes nothing, every other outcome at least 7 bytes and never more than the buffer; so
DRAIN (30_encoding R92), started on an idle block, ends within a fuel above len / 7. -/
def Obligations.EveryDecidedOutcomeMakesProgress : Prop :=
  (∀ buf : List Byte,
    match decodeStream buf with
    | .waitMarker => remainderOffset (decodeStream buf) = 0
    | .waitHeader _ => remainderOffset (decodeStream buf) = 0
    | .waitBody _ _ => remainderOffset (decodeStream buf) = 0
    | .errHex m => 7 ≤ m + 7 ∧ remainderOffset (decodeStream buf) = m + 7 ∧ m + 7 ≤ buf.length
    | .errCrc m _ _ _ => 7 ≤ m + 7 ∧ remainderOffset (decodeStream buf) = m + 7 ∧ m + 7 ≤ buf.length
    | .frame m h _ _ _ =>
      25 ≤ m + 25 + h.plen.toNat ∧ remainderOffset (decodeStream buf) = m + 25 + h.plen.toNat ∧
        m + 25 + h.plen.toNat ≤ buf.length) ∧
  (∀ (s : State) (base len fuel : Nat), s.seq = .idle → len / 7 < fuel → (drain fuel base len s).ended ≠ .outOfFuel)

/-- 45_stream_decode R194, 20_memory R56: appending bytes never turns a decided outcome into something else. -/
def Obligations.DecidedOutcomesSurviveAppending : Prop :=
  ∀ (buf t : List Byte) (o : StreamResult), decodeStream buf = o →
    o.code = .errHex ∨ o.code = .errCrc ∨ o.code = .ok → decodeStream (buf ++ t) = o

/-- 20_memory R56: a DECODE that gives WAIT_HEADER, WAIT_BODY or ERR_HEX for a marker at `m` gives the same for every buffer of
that length that agrees on the bytes before `m + 21`. -/
def Obligations.UndecidedOutcomesIgnoreBytesAfterTheHeader : Prop :=
  ∀ (b c : List Byte) (m : Nat) (h : Header), b.length = c.length → b.take (m + 21) = c.take (m + 21) →
    decodeStream b = .waitHeader m ∨ decodeStream b = .errHex m ∨ decodeStream b = .waitBody m h →
    decodeStream c = decodeStream b

/-- 43_packet_decoder R161, R165: a header is malformed exactly when its 14 bytes are all there and one of
them is no hexadecimal digit; with fewer bytes the result is a wait, whatever they are. -/
def Obligations.MalformedHeaderIsACompleteOneWithABadDigit : Prop :=
  ∀ t : List Byte, (parsePacket t = .errHex ↔ 14 ≤ t.length ∧ ∃ c ∈ t.take 14, hexval c = none) ∧
    (parsePacket t = .waitHeader ↔ t.length < 14)

/-- 43_packet_decoder R163, R166, R167: the four fields by their offsets; whether the body is there is decided by
`18 + plen` bytes in exact arithmetic; payload and declared checksum are sliced by the declared length. -/
def Obligations.PacketsAreSlicedByTheDeclaredLength : Prop :=
  ∀ (t : List Byte) (d s ty n : Nat), 14 ≤ t.length →
    parseHex (slice t 0 4) = some d → parseHex (slice t 4 8) = some s → parseHex (slice t 8 10) = some ty →
    parseHex (slice t 10 14) = some n →
    d < 2 ^ 16 ∧ s < 2 ^ 16 ∧ ty < 2 ^ 8 ∧ n < 2 ^ 16 ∧
    (t.length < 18 + n →
      parsePacket t = .waitBody ⟨BitVec.ofNat 16 d, BitVec.ofNat 16 s, BitVec.ofNat 8 ty, BitVec.ofNat 16 n⟩) ∧
    (18 + n ≤ t.length → ∃ decl,
      parsePacket t = .packet ⟨BitVec.ofNat 16 d, BitVec.ofNat 16 s, BitVec.ofNat 8 ty, BitVec.ofNat 16 n⟩
        (slice t 14 (14 + n)) decl (18 + n) ∧
      (slice t 14 (14 + n)).length = n ∧
      decl.map BitVec.toNat = parseHex (slice t (14 + n) (18 + n)))

/-- 44_checksum_validator R181, 43_packet_decoder R167: a frame is reported only with the declared payload and a trailer that
declares that payload's checksum. -/
def Obligations.AcceptedFramesCarryTheirChecksum : Prop :=
  ∀ (buf : List Byte) (m : Nat) (h : Header) (p : List Byte) (computed : Half) (next : Nat),
    decodeStream buf = .frame m h p computed next →
    FirstMarkerAt buf m ∧ p = slice buf (m + 21) (m + 21 + h.plen.toNat) ∧ p.length = h.plen.toNat ∧ computed = ccitt16 p ∧
      parseHex (slice buf (m + 21 + h.plen.toNat) (m + 25 + h.plen.toNat)) = some (ccitt16 p).toNat ∧
      next = m + 25 + h.plen.toNat

/-- 60_exceptions R224 read literally: every single-bit flip of a frame's trailer gives ERR_CRC. Expected to fail: flipping bit
5 of a letter digit changes only its case, and 30_encoding R78, R84 give both cases the same value (log 18). -/
def Obligations.EveryTrailerBitFlipIsAMismatch : Prop :=
  ∀ (f : Frame) (b : List Byte) (j k : Nat), encodeFrame f = some b → j < 4 → k < 8 →
    (decodeStream (flipBit b (21 + f.payload.length + j) k)).code = .errCrc

/-- 60_exceptions R224, 45_stream_decode R190: a single-bit flip of the trailer that does not merely change a letter's case
(log 18) gives ERR_CRC, with the frame's header, payload checksum and a remainder after the marker. -/
def Obligations.TrailerBitFlipThatChangesTheDigitIsAMismatch : Prop :=
  ∀ (f : Frame) (b : List Byte) (j k : Nat), encodeFrame f = some b → j < 4 → k < 8 →
    ((flipBit b (21 + f.payload.length + j) k).drop (21 + f.payload.length)).map hexval
      ≠ (b.drop (21 + f.payload.length)).map hexval →
    ∃ decl, decodeStream (flipBit b (21 + f.payload.length + j) k)
        = .errCrc 0 ⟨f.dest, f.src, f.typ, BitVec.ofNat 16 f.payload.length⟩ decl (ccitt16 f.payload) ∧
      remainderOffset (decodeStream (flipBit b (21 + f.payload.length + j) k)) = 7

/-! ## Commands -/

/-- 40_crc R102: CRC.CCITT, the word 1, completes in every state, with ccitt16 of the input in R_CRC_CALC, or ERR_OPERAND and 0. -/
def Obligations.CrcCcittCommandResult : Prop :=
  decodeCommand 1#32 = .crcCcitt ∧ ∀ s : State, ∃ t, exec .crcCcitt s = .next t ∧ t.declbad = false ∧ OperandsAndHostKept s t ∧ SameMemory s t ∧
    (s.op.base.toNat + s.op.len.toNat ≤ s.memSize →
      Finished .ok t ∧ t.res = { Results.zero with crcCalc := ccitt16 (inputBytes s) }) ∧
    (s.memSize < s.op.base.toNat + s.op.len.toNat → Finished .errOperand t ∧ t.res = Results.zero)

/-- 40_crc R103: CRC.MODBUS, the word 2, completes in every state, with crc_modbus of the input in R_CRC_CALC, or ERR_OPERAND and 0. -/
def Obligations.CrcModbusCommandResult : Prop :=
  decodeCommand 2#32 = .crcModbus ∧ ∀ s : State, ∃ t, exec .crcModbus s = .next t ∧ t.declbad = false ∧ OperandsAndHostKept s t ∧ SameMemory s t ∧
    (s.op.base.toNat + s.op.len.toNat ≤ s.memSize →
      Finished .ok t ∧ t.res = { Results.zero with crcCalc := Machine.crcModbus (inputBytes s) }) ∧
    (s.memSize < s.op.base.toNat + s.op.len.toNat → Finished .errOperand t ∧ t.res = Results.zero)

/-- 41_encoder R122: ENCODE, the word 3, completes in every state whose memory is in canonical form (Inv): the
wire frame of the operands at OUT_BASE, byte for byte, and nothing else written; or ERR_OVERSIZE, or ERR_OPERAND, and nothing
written at all. The checks stand in the rule's order. -/
def Obligations.EncodeCommandResult : Prop :=
  decodeCommand 3#32 = .encode ∧ ∀ s : State, s.mem.wf = true → ∃ t, exec .encode s = .next t ∧ t.declbad = false ∧ OperandsAndHostKept s t ∧
    (0xFFFF < s.op.len.toNat → Finished .errOversize t ∧ t.res = Results.zero ∧ SameMemory s t) ∧
    (s.op.len.toNat ≤ 0xFFFF → ¬EncodeRangesOk s → Finished .errOperand t ∧ t.res = Results.zero ∧ SameMemory s t) ∧
    (s.op.len.toNat ≤ 0xFFFF → EncodeRangesOk s →
      Finished .ok t ∧
      t.res = { Results.zero with outlen := 25#32 + s.op.len, crcCalc := ccitt16 (inputBytes s) } ∧
      encodeFrame ⟨s.op.dest, s.op.src, s.op.typ, inputBytes s⟩
        = some (t.mem.readBytes s.op.outBase.toNat (25 + s.op.len.toNat)) ∧
      SameMemoryOutside s.op.outBase.toNat (25 + s.op.len.toNat) s t)

/-- 42_scanner R142: SCAN, the word 4, completes in every state and locates the first marker of the input, or reports WAIT_MARKER. -/
def Obligations.ScanCommandResult : Prop :=
  decodeCommand 4#32 = .scan ∧ ∀ s : State, ∃ t, exec .scan s = .next t ∧ t.declbad = false ∧ OperandsAndHostKept s t ∧ SameMemory s t ∧
    (s.memSize < s.op.base.toNat + s.op.len.toNat → Finished .errOperand t ∧ t.res = Results.zero) ∧
    (s.op.base.toNat + s.op.len.toNat ≤ s.memSize → (∀ m, ¬MarkerAt (inputBytes s) m) →
      Finished .waitMarker t ∧ t.res = Results.zero) ∧
    (s.op.base.toNat + s.op.len.toNat ≤ s.memSize → ∀ m, FirstMarkerAt (inputBytes s) m →
      Finished .ok t ∧ ∃ mpos next : Word, t.res = { Results.zero with mpos := mpos, next := next } ∧
        mpos.toNat = m ∧ next.toNat = m + 7)

/-- 43_packet_decoder R162: PARSE, the word 5, completes in every state; its results for each result of parse_packet. -/
def Obligations.ParseCommandResult : Prop :=
  decodeCommand 5#32 = .parse ∧ ∀ s : State, ∃ t, exec .parse s = .next t ∧ OperandsAndHostKept s t ∧ SameMemory s t ∧
    if s.memSize < s.op.base.toNat + s.op.len.toNat then
      Finished .errOperand t ∧ t.res = Results.zero ∧ t.declbad = false
    else
      match parsePacket (inputBytes s) with
      | .waitHeader => Finished .waitHeader t ∧ t.res = Results.zero ∧ t.declbad = false
      | .errHex => Finished .errHex t ∧ t.res = Results.zero ∧ t.declbad = false
      | .waitBody h =>
        Finished .waitBody t ∧ t.declbad = false ∧
          t.res = { Results.zero with dest := h.dest, src := h.src, typ := h.typ, plen := h.plen, poff := 14#32 }
      | .packet h _ decl _ =>
        Finished .ok t ∧ t.declbad = decl.isNone ∧
          t.res = { Results.zero with
            dest := h.dest, src := h.src, typ := h.typ, plen := h.plen, poff := 14#32,
            next := 18#32 + h.plen.setWidth 32, crcDecl := decl.getD 0#16 }

/-- 44_checksum_validator R182: CHECK, the word 6, completes in every state; OK exactly when the input's checksum is OP_CRC. -/
def Obligations.CheckCommandResult : Prop :=
  decodeCommand 6#32 = .check ∧ ∀ s : State, ∃ t, exec .check s = .next t ∧ t.declbad = false ∧ OperandsAndHostKept s t ∧ SameMemory s t ∧
    (s.memSize < s.op.base.toNat + s.op.len.toNat → Finished .errOperand t ∧ t.res = Results.zero) ∧
    (s.op.base.toNat + s.op.len.toNat ≤ s.memSize →
      t.res = { Results.zero with crcCalc := ccitt16 (inputBytes s) } ∧
      (ccitt16 (inputBytes s) = s.op.crc → Finished .ok t) ∧ (ccitt16 (inputBytes s) ≠ s.op.crc → Finished .errCrc t))

/-- 45_stream_decode R192: DECODE, the word 7, completes in every state; the rule's table, line by line. -/
def Obligations.DecodeCommandResult : Prop :=
  decodeCommand 7#32 = .decode ∧ ∀ s : State, ∃ t, exec .decode s = .next t ∧ OperandsAndHostKept s t ∧ SameMemory s t ∧
    if s.memSize < s.op.base.toNat + s.op.len.toNat then
      Finished .errOperand t ∧ t.res = Results.zero ∧ t.declbad = false
    else
      match decodeStream (inputBytes s) with
      | .waitMarker => Finished .waitMarker t ∧ t.declbad = false ∧ t.res = Results.zero
      | .waitHeader m =>
        Finished .waitHeader t ∧ t.declbad = false ∧ ∃ mpos : Word, mpos.toNat = m ∧ t.res = { Results.zero with mpos := mpos }
      | .errHex m =>
        Finished .errHex t ∧ t.declbad = false ∧ ∃ mpos next : Word, mpos.toNat = m ∧ next.toNat = m + 7 ∧
          t.res = { Results.zero with mpos := mpos, next := next }
      | .waitBody m h =>
        Finished .waitBody t ∧ t.declbad = false ∧ ∃ mpos poff : Word, mpos.toNat = m ∧ poff.toNat = m + 21 ∧
          t.res = { Results.zero with
            mpos := mpos, dest := h.dest, src := h.src, typ := h.typ, plen := h.plen, poff := poff }
      | .errCrc m h decl computed =>
        Finished .errCrc t ∧ t.declbad = decl.isNone ∧
          ∃ mpos poff next : Word, mpos.toNat = m ∧ poff.toNat = m + 21 ∧ next.toNat = m + 7 ∧
            t.res = { Results.zero with
              mpos := mpos, dest := h.dest, src := h.src, typ := h.typ, plen := h.plen, poff := poff,
              crcDecl := decl.getD 0#16, crcCalc := computed, next := next }
      | .frame m h _ computed _ =>
        Finished .ok t ∧ t.declbad = false ∧
          ∃ mpos poff next : Word, mpos.toNat = m ∧ poff.toNat = m + 21 ∧ next.toNat = m + 25 + h.plen.toNat ∧
            t.res = { Results.zero with
              mpos := mpos, dest := h.dest, src := h.src, typ := h.typ, plen := h.plen, poff := poff,
              crcDecl := computed, crcCalc := computed, next := next }

/-- 30_encoding R90: the reserved words are those with CMD[2:0] = 0 or a bit of CMD[31:3] set. Written in IDLE one finishes
at once; as the running instruction both kinds complete in every state: ERR_CMD, all results 0, memory unread and unwritten. -/
def Obligations.ReservedWordsFinishWithErrCmd : Prop :=
  (∀ w : Word, (isCommand (decodeCommand w) = false ↔ (w.toNat % 8 = 0 ∨ w.toNat / 8 ≠ 0)) ∧
    reservedWord w = !isCommand (decodeCommand w)) ∧
  (∀ (s : State) (w : Word), s.seq = .idle → reservedWord w = true →
    Finished .errCmd (writeReg .cmd w s) ∧ (writeReg .cmd w s).res = Results.zero ∧ (writeReg .cmd w s).declbad = false ∧
      SameMemory s (writeReg .cmd w s)) ∧
  (∀ (s : State) (i : Instr), i = .reservedOp0 ∨ (∃ high op, i = .reservedHigh high op) →
    ∃ t, exec i s = .next t ∧ Finished .errCmd t ∧ t.res = Results.zero ∧ t.declbad = false ∧ OperandsAndHostKept s t ∧
      SameMemory s t ∧ ∀ m, exec i (setMem m s) = .next (setMem m t))

/-- 20_memory R51, 30_encoding R74, 60_exceptions R249 (log 10, the model's reading of the table's row): a frame that arrives and
fits is written behind the decode buffer. At an idle block OP_LEN then names it. While a command runs (log 27, from 10_state R25
and 20_memory R58) OP_LEN keeps its value, and a frame that would touch a running ENCODE's output range stops (log 12), until its
finish (log 28). Nothing else changes. -/
def Obligations.ArrivingFrameExtendsTheDecodeBuffer : Prop :=
  ∀ (s : State) (d sr : Half) (ty : Byte) (p : List Byte), s.mem.wf = true → p.length ≤ maxPayload →
    s.op.base.toNat + s.op.len.toNat + 25 + p.length ≤ s.memSize → s.op.len.toNat + 25 + p.length < 2 ^ 32 →
    (s.seq = .idle → ∃ t, exec (.wireFrame d sr ty p) s = .next t ∧ OnlyMemoryAndLenChanged s t ∧
      t.op.len.toNat = s.op.len.toNat + 25 + p.length ∧
      encodeFrame ⟨d, sr, ty, p⟩ = some (t.mem.readBytes (s.op.base.toNat + s.op.len.toNat) (25 + p.length)) ∧
      SameMemoryOutside (s.op.base.toNat + s.op.len.toNat) (25 + p.length) s t) ∧
    (∀ k, s.seq = .busy k →
      ((∀ x, s.op.base.toNat + s.op.len.toNat ≤ x → x < s.op.base.toNat + s.op.len.toNat + 25 + p.length →
          ¬InRunningOutput k s x) →
        ∃ t, exec (.wireFrame d sr ty p) s = .next t ∧ t = { s with mem := t.mem } ∧
          encodeFrame ⟨d, sr, ty, p⟩ = some (t.mem.readBytes (s.op.base.toNat + s.op.len.toNat) (25 + p.length)) ∧
          SameMemoryOutside (s.op.base.toNat + s.op.len.toNat) (25 + p.length) s t) ∧
      ((∃ x, (s.op.base.toNat + s.op.len.toNat ≤ x ∧ x < s.op.base.toNat + s.op.len.toNat + 25 + p.length) ∧
          InRunningOutput k s x) →
        exec (.wireFrame d sr ty p) s = .fault (.hostTouchesRange (s.op.base.toNat + s.op.len.toNat) (25 + p.length))))

/-- 41_encoder R123 and log 11: where an arriving frame changes nothing (no room, the model's choice), and where there is no
such frame. -/
def Obligations.ArrivingFrameWithoutRoomChangesNothing : Prop :=
  ∀ (s : State) (d sr : Half) (ty : Byte) (p : List Byte),
    (maxPayload < p.length → exec (.wireFrame d sr ty p) s = .refused .noSuchFrame) ∧
    (p.length ≤ maxPayload →
      s.memSize < s.op.base.toNat + s.op.len.toNat + 25 + p.length ∨ 2 ^ 32 ≤ s.op.len.toNat + 25 + p.length →
      exec (.wireFrame d sr ty p) s = .next s)

/-- 10_state R25, 20_memory R54, 60_exceptions R234, R238: the frame of the six commands that store nothing and of the reserved
words. Result registers and STATUS aside nothing changes, and every byte of memory reads as before. -/
def Obligations.NonStoringCommandsKeepMemoryAndOperands : Prop :=
  ∀ (i : Instr) (s t : State), i ≠ .encode → (∀ d sr ty p, i ≠ .wireFrame d sr ty p) → exec i s = .next t →
    OperandsAndHostKept s t ∧ SameMemory s t

/-- 20_memory R54, 60_exceptions R234, R238: the frame of ENCODE. It writes no address outside its output range, and none at
all unless it finishes OK. -/
def Obligations.EncodeWritesOnlyItsOutputRange : Prop :=
  ∀ s t : State, exec .encode s = .next t →
    OperandsAndHostKept s t ∧ SameMemoryOutside s.op.outBase.toNat (25 + s.op.len.toNat) s t ∧
      (t.code ≠ .ok → SameMemory s t ∧ t.res = Results.zero)

/-- 10_state R32 (an inference the spec marks as its own): a code not listed for a command is never produced by it. The clause on
arriving frames is not R32's: it rests on log 10, the model's choice that the table's row means an arrival, for which the block
executes nothing (20_memory R62), so that CODE stays. -/
def Obligations.OnlyListedCodesArise : Prop :=
  ∀ (i : Instr) (s t : State), exec i s = .next t →
    match i with
    | .crcCcitt => t.code = .ok ∨ t.code = .errOperand
    | .crcModbus => t.code = .ok ∨ t.code = .errOperand
    | .encode => t.code = .ok ∨ t.code = .errOversize ∨ t.code = .errOperand
    | .scan => t.code = .ok ∨ t.code = .waitMarker ∨ t.code = .errOperand
    | .parse => t.code = .ok ∨ t.code = .waitHeader ∨ t.code = .waitBody ∨ t.code = .errHex ∨ t.code = .errOperand
    | .check => t.code = .ok ∨ t.code = .errCrc ∨ t.code = .errOperand
    | .decode =>
      t.code = .ok ∨ t.code = .waitMarker ∨ t.code = .waitHeader ∨ t.code = .waitBody ∨ t.code = .errHex ∨ t.code = .errCrc ∨
        t.code = .errOperand
    | .reservedOp0 => t.code = .errCmd
    | .reservedHigh _ _ => t.code = .errCmd
    | .wireFrame _ _ _ _ => t.code = s.code

/-- 60_exceptions R232: the code a DECODE reports is the first of causes 3 to 8 that holds. -/
def Obligations.DecodeReportsTheFirstCause : Prop :=
  ∀ s t : State, exec .decode s = .next t →
    if s.memSize < s.op.base.toNat + s.op.len.toNat then t.code = .errOperand
    else
      ((∀ m, ¬MarkerAt (inputBytes s) m) → t.code = .waitMarker) ∧
      ∀ m, FirstMarkerAt (inputBytes s) m →
        if (inputBytes s).length < m + 21 then t.code = .waitHeader
        else if ∃ c ∈ slice (inputBytes s) (m + 7) (m + 21), hexval c = none then t.code = .errHex
        else ∀ n, parseHex (slice (inputBytes s) (m + 17) (m + 21)) = some n →
          if (inputBytes s).length < m + 25 + n then t.code = .waitBody
          else if parseHex (slice (inputBytes s) (m + 21 + n) (m + 25 + n))
              ≠ some (ccitt16 (slice (inputBytes s) (m + 21) (m + 21 + n))).toNat then t.code = .errCrc
          else t.code = .ok

/-- 60_exceptions R232, causes 1 to 3: a reserved word before everything, then ENCODE's oversize, then the ranges. -/
def Obligations.ShellChecksComeInOrder : Prop :=
  ∀ (s : State) (w : Word), s.seq = .idle →
    (reservedWord w = true → Finished .errCmd (writeReg .cmd w s)) ∧
    (0xFFFF < s.op.len.toNat → ∃ t, exec .encode s = .next t ∧ Finished .errOversize t) ∧
    (∀ i, isCommand i = true → i ≠ .encode ∨ s.op.len.toNat ≤ 0xFFFF → s.memSize < s.op.base.toNat + s.op.len.toNat →
      ∃ t, exec i s = .next t ∧ Finished .errOperand t ∧ t.res = Results.zero)

/-- 10_state R20, 00_scope R14: results and outcome of a command depend on the operand registers, MEM_SIZE and the input bytes
alone: not on earlier results, on STATUS, or on any other byte of memory. -/
def Obligations.ResultsDependOnOperandsAndInputOnly : Prop :=
  ∀ (i : Instr) (s u : State), isCommand i = true → s.op = u.op → s.memSize = u.memSize → inputBytes s = inputBytes u →
    ∃ t v, exec i s = .next t ∧ exec i u = .next v ∧ t.res = v.res ∧ t.code = v.code ∧ t.declbad = v.declbad ∧
      t.done = v.done ∧ t.seq = v.seq

/-- 10_state R23: after a DECODE that is OK the frame read from R_DEST, R_SRC, R_TYPE and the payload range is the one the
decoder found. -/
def Obligations.DeliveredFrameIsTheDecodedOne : Prop :=
  ∀ (s t : State) (m : Nat) (h : Header) (p : List Byte) (computed : Half) (next : Nat),
    s.op.base.toNat + s.op.len.toNat ≤ s.memSize → decodeStream (inputBytes s) = .frame m h p computed next →
    exec .decode s = .next t → deliveredFrame t = ⟨h.dest, h.src, h.typ, p⟩

/-- 45_stream_decode R193: DECODE tells the host what SCAN, PARSE and CHECK in sequence tell it: the outcome and every value, the
payload offset and the computed checksum among them (from CRC.CCITT where the trailer did not parse). -/
def Obligations.DecodeEqualsTheUnitSequence : Prop :=
  ∀ (s : State) (base len : Nat), s.seq = .idle → s.memSize ≤ 2 ^ 32 → base + len ≤ s.memSize → len < 2 ^ 32 →
    unitSequence base len s = decodeRun base len s

/-- 41_encoder R125, 30_encoding R92 (SEND): on the machine, what an ENCODE that is OK has written is sent as the encoding of
the operands' frame, and a DECODE of it delivers that frame with an empty remainder. -/
def Obligations.EncodeThenDecodeDeliversTheFrame : Prop :=
  ∀ s t : State, Inv s → exec .encode s = .next t → t.code = .ok →
    encodeFrame ⟨s.op.dest, s.op.src, s.op.typ, inputBytes s⟩ = some (sentBytes t) ∧
    ∃ u, exec .decode (pointAt s.op.outBase.toNat t.res.outlen.toNat t) = .next u ∧ u.code = .ok ∧
      deliveredFrame u = ⟨s.op.dest, s.op.src, s.op.typ, inputBytes s⟩ ∧ u.res.mpos = 0#32 ∧ u.res.next = t.res.outlen

/-- 30_encoding R92, 45_stream_decode R198: DRAIN of a buffer that holds the encodings of any list of frames delivers exactly
those frames, in order, and ends with an empty remainder. -/
def Obligations.DrainDeliversEveryFrameInOrder : Prop :=
  ∀ (s : State) (base fuel : Nat) (frames : List Frame), s.seq = .idle → s.memSize ≤ 2 ^ 32 →
    (∀ f ∈ frames, f.payload.length ≤ maxPayload) → (frames.flatMap frameBytes).length < 2 ^ 32 →
    base + (frames.flatMap frameBytes).length ≤ s.memSize →
    s.mem.readBytes base (frames.flatMap frameBytes).length = frames.flatMap frameBytes → frames.length < fuel →
    (drain fuel base (frames.flatMap frameBytes).length s).delivered = frames.map .frame ∧
    (drain fuel base (frames.flatMap frameBytes).length s).ended
      = .waiting (base + (frames.flatMap frameBytes).length) 0

/-- 60_exceptions R236: the diagnostic event is the tuple in STATUS, R_DEST, R_SRC and R_MPOS, after a PARSE, CHECK or DECODE
whose code is 1 to 5 and after nothing else; for a mismatch found by DECODE it carries the parsed destination and source, and
where no identifiers were parsed (WAIT_MARKER, WAIT_HEADER, ERR_HEX, of PARSE as of DECODE) they are 0. -/
def Obligations.MismatchEmitsTheDiagnosticEvent : Prop :=
  (∀ (i : Instr) (t : State),
    ((i = .parse ∨ i = .check ∨ i = .decode) ∧ 1 ≤ t.code.num.toNat ∧ t.code.num.toNat ≤ 5 →
      diagnosticEvent i t = some ⟨t.code, t.declbad, t.res.dest, t.res.src, t.res.mpos⟩) ∧
    (¬((i = .parse ∨ i = .check ∨ i = .decode) ∧ 1 ≤ t.code.num.toNat ∧ t.code.num.toNat ≤ 5) →
      diagnosticEvent i t = none)) ∧
  (∀ (s t : State) (m : Nat) (h : Header) (decl : Option Half) (computed : Half),
    s.op.base.toNat + s.op.len.toNat ≤ s.memSize → decodeStream (inputBytes s) = .errCrc m h decl computed →
    exec .decode s = .next t → ∃ mpos : Word, mpos.toNat = m ∧
      diagnosticEvent .decode t = some ⟨.errCrc, decl.isNone, h.dest, h.src, mpos⟩) ∧
  (∀ (i : Instr) (s t : State), i = .parse ∨ i = .check ∨ i = .decode → exec i s = .next t →
    t.code = .waitMarker ∨ t.code = .waitHeader ∨ t.code = .errHex →
    diagnosticEvent i t = some ⟨t.code, false, 0#16, 0#16, t.res.mpos⟩)

/-! ## Registers and the host -/

/-- 10_state R30, R31: the bits of STATUS, and the nine numbers CODE can hold, from the table of R31. -/
def Obligations.StatusWordLayout : Prop :=
  ∀ s : State, (statusWord s).getLsbD 0 = busy s ∧ (statusWord s).getLsbD 1 = s.done ∧
    (statusWord s).extractLsb' 2 2 = 0#2 ∧ (statusWord s).extractLsb' 4 4 = s.code.num ∧
    (statusWord s).getLsbD 8 = s.declbad ∧ (statusWord s).extractLsb' 9 23 = 0#23 ∧
    Code.ok.num = 0#4 ∧ Code.waitMarker.num = 1#4 ∧ Code.waitHeader.num = 2#4 ∧ Code.waitBody.num = 3#4 ∧
    Code.errHex.num = 4#4 ∧ Code.errCrc.num = 5#4 ∧ Code.errOversize.num = 6#4 ∧ Code.errOperand.num = 7#4 ∧
    Code.errCmd.num = 8#4 ∧ s.code.num.toNat ≤ 8

/-- 10_state R29, R33, R41, 30_encoding R90: the host's accesses to register number 0. A read returns 0. A write in IDLE: a
command word starts its command with everything cleared, a reserved word finishes at once. A write while BUSY: nothing. Two
clauses are the model's: that STATUS reads 1 right after the write of a command word rests on the split of R41's one atomic step
in two (log 2), and the working values there on the choice to show the working state as at command start (log 8; R33
initialises each value per evaluation). -/
def Obligations.CmdWriteStartsACommandOnlyWhenIdle : Prop :=
  ∀ (s : State) (w : Word),
    hostAccess (.readReg 0) s = .next { s with replies := s.replies ++ [.reg 0 0#32] } ∧
    (busy s = true → hostAccess (.writeReg 0 w) s = .next s) ∧
    (busy s = false → ∃ t, hostAccess (.writeReg 0 w) s = .next t ∧ OperandsAndHostKept s t ∧ SameMemory s t ∧
      t.res = Results.zero ∧ t.declbad = false ∧
      (reservedWord w = true → Finished .errCmd t) ∧
      (reservedWord w = false →
        (∃ k, t.seq = .busy k ∧ k.command = w ∧ k.ccitt = 0xFFFF#16 ∧ k.modbus = 0xFFFF#16 ∧ k.byteIndex = 0#32) ∧
        t.done = false ∧ t.code = .ok ∧ statusWord t = 1#32))

/-- 10_state R25: a host write to the operand register with number `n`, 2 to 8, stores the low bits of the register's width, which
a read then returns zero-extended; the other 18 registers, memory and the sequencer keep their values. While BUSY it is ignored.
No instruction of the block writes an operand register (a frame that arrives is the host's doing). -/
def Obligations.OperandWritesTruncateAndWaitForIdle : Prop :=
  (∀ (s : State) (v : Word) (n : Nat), 2 ≤ n → n ≤ 8 →
    (busy s = true → hostAccess (.writeReg n v) s = .next s) ∧
    (busy s = false → ∃ t, hostAccess (.writeReg n v) s = .next t ∧
      registerValues t = (registerValues s).set n (BitVec.ofNat 32 (v.toNat % 2 ^ operandWidth n)) ∧
      t = { s with op := t.op } ∧
      hostAccess (.readReg n) t
        = .next { t with replies := t.replies ++ [.reg n (BitVec.ofNat 32 (v.toNat % 2 ^ operandWidth n))] })) ∧
  (∀ (i : Instr) (s t : State), (∀ d sr ty p, i ≠ .wireFrame d sr ty p) → exec i s = .next t → t.op = s.op)

/-- 10_state R26, R30: STATUS (number 1) and the result registers (9 to 18) ignore host writes, IDLE or BUSY. Above 18 there is no
register, and the write faults (log 13, the model's reading of 20_memory R59). -/
def Obligations.StatusAndResultsIgnoreWrites : Prop :=
  ∀ (s : State) (v : Word) (n : Nat),
    (n = 1 ∨ (9 ≤ n ∧ n ≤ 18) → hostAccess (.writeReg n v) s = .next s) ∧
    (18 < n → hostAccess (.writeReg n v) s = .fault (.noSuchRegister n))

/-- 10_state R21, R22, R25, R29, R30: which register each number 0 to 18 names, and that a host read returns its value and changes
nothing in the block. A result register read while BUSY is left free (R26, log 4), so nothing is said of its value. Above 18
there is no register, and the read faults (log 13, the model's reading of 20_memory R59). -/
def Obligations.HostReadsReturnTheRegister : Prop :=
  ∀ (s : State) (n : Nat),
    (∀ v, (registerValues s)[n]? = some v →
      ∃ t w, hostAccess (.readReg n) s = .next t ∧
        t = { s with replies := s.replies ++ [.reg n w], freeIdx := t.freeIdx } ∧ (busy s = false ∨ n < 9 → w = v)) ∧
    ((registerValues s)[n]? = none ↔ 18 < n) ∧
    (18 < n → hostAccess (.readReg n) s = .fault (.noSuchRegister n))

/-- 20_memory R50, R52, R54: the host stores bytes into an idle block's memory and reads them back; every other byte and the
whole block stay as they are. That this holds of a block that has finished and whose DONE the host has not read yet is the
model's choice (log 28). Beyond MEM_SIZE there is nothing: that such an access, an empty one included, ends in the fault
noSuchAddress is the model's (log 13). -/
def Obligations.HostStoreThenLoadReturnsTheBytes : Prop :=
  ∀ (s : State) (a : Nat) (bytes : List Byte), s.mem.wf = true → s.seq = .idle →
    (a + bytes.length ≤ s.memSize → ∃ t u, hostAccess (.writeMem a bytes) s = .next t ∧
      SameMemoryOutside a bytes.length s t ∧ t = { s with mem := t.mem } ∧ t.mem.wf = true ∧
      hostAccess (.readMem a bytes.length) t = .next u ∧ u = { t with replies := t.replies ++ [.bytes a bytes] }) ∧
    (s.memSize < a + bytes.length → hostAccess (.writeMem a bytes) s = .fault (.noSuchAddress a bytes.length) ∧
      hostAccess (.readMem a bytes.length) s = .fault (.noSuchAddress a bytes.length))

/-- 20_memory R58: while a command runs a host write into its input range, and any host access to a running ENCODE's output range,
stops (93 U5: the host has no such move; the fault is the model's, log 12). Everything else the host may do: a write elsewhere,
OUT_BASE's range included while another command runs, puts its bytes there and changes nothing else; a read elsewhere, of the
input range too, returns the bytes. The ranges count as in use until the finish, not until the host has read DONE = 1, which is
the model's choice (log 28). -/
def Obligations.HostExclusionWhileBusy : Prop :=
  ∀ (s : State) (k : Working) (a : Nat) (bytes : List Byte), s.seq = .busy k → a + bytes.length ≤ s.memSize →
    ((∃ x, (a ≤ x ∧ x < a + bytes.length) ∧ InInput s x) →
      hostAccess (.writeMem a bytes) s = .fault (.hostTouchesRange a bytes.length)) ∧
    ((∃ x, (a ≤ x ∧ x < a + bytes.length) ∧ InRunningOutput k s x) →
      hostAccess (.writeMem a bytes) s = .fault (.hostTouchesRange a bytes.length) ∧
      hostAccess (.readMem a bytes.length) s = .fault (.hostTouchesRange a bytes.length)) ∧
    ((∀ x, a ≤ x → x < a + bytes.length → ¬InInput s x ∧ ¬InRunningOutput k s x) →
      ∃ t, hostAccess (.writeMem a bytes) s = .next t ∧ t = { s with mem := t.mem } ∧
        SameMemoryOutside a bytes.length s t ∧ (s.mem.wf = true → t.mem.readBytes a bytes.length = bytes)) ∧
    ((∀ x, a ≤ x → x < a + bytes.length → ¬InRunningOutput k s x) →
      hostAccess (.readMem a bytes.length) s
        = .next { s with replies := s.replies ++ [.bytes a (s.mem.readBytes a bytes.length)] })

/-- 20_memory R51: any received bytes that fit are appended behind an idle block's decode buffer, so a later command's input is
the old input with the bytes after it. While a command runs (log 27, from 10_state R25 and 20_memory R58) the bytes are written
there too, but OP_LEN and so the input keep their values; bytes that would touch a running ENCODE's output range stop (log 12),
until its finish (log 28). -/
def Obligations.ReceivedBytesFollowTheOldInput : Prop :=
  ∀ (s : State) (bytes : List Byte), s.mem.wf = true →
    s.op.base.toNat + s.op.len.toNat + bytes.length ≤ s.memSize → s.op.len.toNat + bytes.length < 2 ^ 32 →
    (s.seq = .idle → ∃ t, hostAccess (.receive bytes) s = .next t ∧ inputBytes t = inputBytes s ++ bytes ∧
      SameMemoryOutside (s.op.base.toNat + s.op.len.toNat) bytes.length s t ∧ OnlyMemoryAndLenChanged s t) ∧
    (∀ k, s.seq = .busy k →
      ((∀ x, s.op.base.toNat + s.op.len.toNat ≤ x → x < s.op.base.toNat + s.op.len.toNat + bytes.length →
          ¬InRunningOutput k s x) →
        ∃ t, hostAccess (.receive bytes) s = .next t ∧ t = { s with mem := t.mem } ∧ inputBytes t = inputBytes s ∧
          t.mem.readBytes (s.op.base.toNat + s.op.len.toNat) bytes.length = bytes ∧
          SameMemoryOutside (s.op.base.toNat + s.op.len.toNat) bytes.length s t) ∧
      ((∃ x, (s.op.base.toNat + s.op.len.toNat ≤ x ∧ x < s.op.base.toNat + s.op.len.toNat + bytes.length) ∧
          InRunningOutput k s x) →
        hostAccess (.receive bytes) s = .fault (.hostTouchesRange (s.op.base.toNat + s.op.len.toNat) bytes.length)))

/-! ## The machine -/

/-- 10_state R27, R41: a step runs the decoded instruction. A started command runs to its finish in the step in which the block
moves: always when the host has nothing to do but wait, else as the free value says (log 3, the model's choice). What surrounds
it is the model's: a wire frame's bytes that the host of an idle block receives run that frame's instruction (log 10), an idle
block whose host makes no access stays as it is (log 15), and so does one whose host waits for a DONE that no command will set
(log 14). -/
def Obligations.StepRunsTheDecodedInstruction : Prop :=
  (∀ (s : State) (k : Working) (i : Instr), s.seq = .busy k → Sys2Proof.decode (.command k.command) = .instr i →
    (s.program = [] ∨ s.program.head? = some .wait → step s = exec i s) ∧
    (∀ a rest, s.program = a :: rest → a ≠ .wait →
      step s = if Config.blockFirst s.freeIdx = true then exec i { s with freeIdx := s.freeIdx + 1 }
        else hostAccess a { s with freeIdx := s.freeIdx + 1, program := rest })) ∧
  (∀ (s : State) (a : HostAccess) (rest : List HostAccess), s.seq = .idle → s.program = a :: rest →
    (a ≠ .wait ∨ s.done = true → step s = hostAccess a { s with program := rest }) ∧
    (∀ d sr ty p b, encodeFrame ⟨d, sr, ty, p⟩ = some b → a = .receive b →
      step s = exec (.wireFrame d sr ty p) { s with program := rest })) ∧
  (∀ s : State, s.seq = .idle → s.program = [] ∨ (s.program.head? = some .wait ∧ s.done = false) → step s = .next s)

/-- The table's words, placed as the next instruction, are run by the very next step (log 16). -/
def Obligations.PlacedWordRunsNext : Prop :=
  ∀ (s : State) (nbits w : Nat), nbits ≤ 32 → ∃ i, decodeTableWord nbits w = some i ∧
    step (s.withFetchWord nbits w) = exec i (s.withFetchWord nbits w) ∧
    ∃ t, step (s.withFetchWord nbits w) = .next t ∧ t.done = true ∧ t.seq = .idle

/-- 70_reset R280, 10_state R40: a command that the host waits for is finished by the next step, whatever it is. -/
def Obligations.StartedCommandFinishes : Prop :=
  ∀ (s : State) (k : Working), s.seq = .busy k → s.program = [] ∨ s.program.head? = some .wait →
    ∃ t, step s = .next t ∧ t.done = true ∧ t.seq = .idle ∧ OperandsAndHostKept s t

/-- 20_memory R62: bytes of memory are never interpreted as commands: who moves next, and with what, does not depend on them. -/
def Obligations.MemoryIsNeverExecuted : Prop :=
  ∀ (s : State) (m : Memory),
    fetch (setMem m s) =
      match fetch s with
      | .command i t => .command i (setMem m t)
      | .host a t => .host a (setMem m t)
      | .nothing => .nothing

/-- The invariant holds after reset (10_state R35; MEM_SIZE at reset is the model's choice, log 6). -/
def Obligations.InvariantHoldsAtReset : Prop := Inv State.reset

/-- Every step, of the block or of the host, from every state, keeps the invariant: memory canonical and inside MEM_SIZE, the
results 0 until a command finishes, BUSY and DONE exclusive, only commands running, DECLBAD and the empty-handed outcomes as
60_exceptions R221 says. -/
def Obligations.EveryStepKeepsTheInvariant : Prop :=
  ∀ s t : State, Inv s → step s = .next t → Inv t

/-- 60_exceptions R234, R238 over whole steps: whoever moves, MEM_SIZE never changes, and operand registers change only by the
host's own writes, received bytes or reset. -/
def Obligations.OnlyTheHostChangesOperands : Prop :=
  ∀ s t : State, step s = .next t → t.memSize = s.memSize ∧
    (t.op ≠ s.op → ∃ u, fetch s = .host .reset u ∨ (∃ n v, fetch s = .host (.writeReg n v) u ∧ busy s = false) ∨
      (∃ bytes, fetch s = .host (.receive bytes) u ∧ busy s = false))
end

