-- ==== Sys2Proof/Laws/Memory.lean ====
section
/-! SUPPORT. What the memory operations do: a byte reads back as it was written, every other byte reads as before, and the
canonical form is kept. -/

namespace Sys2Proof.Machine

/-- A list that rises from a higher bound rises from a lower one. -/
theorem Memory.risingFrom_mono {lo lo' : Nat} (h : lo' ≤ lo) :
    ∀ {m : Memory}, Memory.risingFrom lo m = true → Memory.risingFrom lo' m = true
  | [], _ => rfl
  | (a, b) :: rest, hm => by
    simp only [Memory.risingFrom, Bool.and_eq_true, decide_eq_true_eq] at hm ⊢
    exact ⟨⟨by omega, hm.1.2⟩, hm.2⟩

/-- Below the bound a rising list lists nothing. -/
theorem Memory.read_below {x : Nat} :
    ∀ {lo : Nat} {m : Memory}, Memory.risingFrom lo m = true → x < lo → m.read x = Memory.unwritten
  | _, [], _, _ => rfl
  | lo, (a, b) :: rest, hm, hx => by
    simp only [Memory.risingFrom, Bool.and_eq_true, decide_eq_true_eq] at hm
    have hne : a ≠ x := by omega
    simp only [Memory.read, if_neg hne]
    exact Memory.read_below hm.2 (by omega)

/-- A write leaves every other byte as it was. Holds for any list. -/
theorem Memory.read_write_other {x y : Nat} (v : Byte) (h : y ≠ x) : ∀ m : Memory, (m.write x v).read y = m.read y
  | [] => by
    simp only [Memory.write]
    split
    · rfl
    · simp [Memory.read, Ne.symm h]
  | (a, b) :: rest => by
    simp only [Memory.write]
    split
    · split
      · rfl
      · simp [Memory.read, Ne.symm h]
    · split
      · rename_i hxa
        split
        · simp [Memory.read, ← hxa, Ne.symm h]
        · simp [Memory.read, ← hxa, Ne.symm h]
      · simp [Memory.read, Memory.read_write_other v h rest]

/-- The byte written is read back, from a memory in canonical form. -/
theorem Memory.read_write_risingFrom {x : Nat} (v : Byte) :
    ∀ {lo : Nat} {m : Memory}, Memory.risingFrom lo m = true → (m.write x v).read x = v
  | _, [], _ => by
    simp only [Memory.write]
    split
    · rename_i h; simp [Memory.read, h]
    · simp [Memory.read]
  | lo, (a, b) :: rest, hm => by
    have hm' := hm
    simp only [Memory.risingFrom, Bool.and_eq_true, decide_eq_true_eq] at hm
    simp only [Memory.write]
    split
    · rename_i hxa
      split
      · rename_i hv
        have hne : a ≠ x := by omega
        simp only [Memory.read, if_neg hne, hv]
        exact Memory.read_below hm.2 (by omega)
      · simp [Memory.read]
    · split
      · rename_i hxa
        split
        · rename_i hv
          rw [hv]
          exact Memory.read_below hm.2 (by omega)
        · simp [Memory.read]
      · rename_i hlt hne
        have hne' : a ≠ x := fun e => hne e.symm
        simp only [Memory.read, if_neg hne']
        exact Memory.read_write_risingFrom v hm.2

/-- Read after write. -/
theorem Memory.read_write_same {m : Memory} (hm : m.wf = true) (x : Nat) (v : Byte) : (m.write x v).read x = v :=
  Memory.read_write_risingFrom v hm

/-- A write keeps a list rising. -/
theorem Memory.risingFrom_write {x : Nat} (v : Byte) :
    ∀ {lo : Nat} {m : Memory}, Memory.risingFrom lo m = true → lo ≤ x → Memory.risingFrom lo (m.write x v) = true
  | lo, [], _, hx => by
    simp only [Memory.write]
    split
    · rfl
    · rename_i hv
      simp [Memory.risingFrom, hx, hv]
  | lo, (a, b) :: rest, hm, hx => by
    have hm' := hm
    simp only [Memory.risingFrom, Bool.and_eq_true, decide_eq_true_eq] at hm
    simp only [Memory.write]
    split
    · rename_i hxa
      split
      · exact hm'
      · rename_i hv
        simp only [Memory.risingFrom, Bool.and_eq_true, decide_eq_true_eq]
        exact ⟨⟨hx, by simpa using hv⟩, ⟨by omega, hm.1.2⟩, hm.2⟩
    · split
      · rename_i hxa
        subst hxa
        split
        · exact Memory.risingFrom_mono (by omega) hm.2
        · rename_i hv
          simp only [Memory.risingFrom, Bool.and_eq_true, decide_eq_true_eq]
          exact ⟨⟨hx, by simpa using hv⟩, hm.2⟩
      · simp only [Memory.risingFrom, Bool.and_eq_true, decide_eq_true_eq]
        exact ⟨hm.1, Memory.risingFrom_write v hm.2 (by omega)⟩

/-- A write keeps the canonical form. -/
theorem Memory.wf_write {m : Memory} (hm : m.wf = true) (x : Nat) (v : Byte) : (m.write x v).wf = true :=
  Memory.risingFrom_write v hm (Nat.zero_le _)

/-- A write lists no new address but its own. -/
theorem Memory.mem_write {x : Nat} {v : Byte} {c : Host.Cell} : ∀ {m : Memory}, c ∈ m.write x v → c ∈ m ∨ c = (x, v)
  | [], h => by
    simp only [Memory.write] at h
    split at h <;> simp_all
  | (a, b) :: rest, h => by
    simp only [Memory.write] at h
    split at h
    · split at h <;> simp_all; tauto
    · split at h
      · split at h <;> simp_all; tauto
      · rcases List.mem_cons.mp h with h | h
        · exact .inl (by simp [h])
        · rcases Memory.mem_write h with h | h
          · exact .inl (by simp [h])
          · exact .inr h

/-- Writing a run of bytes keeps the canonical form. -/
theorem Memory.wf_writeBytes : ∀ {m : Memory} {a : Nat} {bytes : List Byte}, m.wf = true → (m.writeBytes a bytes).wf = true
  | _, _, [], h => h
  | m, a, b :: rest, h => Memory.wf_writeBytes (m := m.write a b) (a := a + 1) (bytes := rest) (Memory.wf_write h a b)

/-- Writing some bytes of a run keeps the canonical form. -/
theorem Memory.wf_writeSome {kept : Nat → Bool} :
    ∀ {j : Nat} {m : Memory} {a : Nat} {bytes : List Byte}, m.wf = true → (Memory.writeSome kept j m a bytes).wf = true
  | _, _, _, [], h => h
  | j, m, a, b :: rest, h => by
    simp only [Memory.writeSome]
    split
    · exact Memory.wf_writeSome (Memory.wf_write h _ _)
    · exact Memory.wf_writeSome h

/-- Writing a run of bytes leaves the bytes outside the run as they were. Holds for any list. -/
theorem Memory.read_writeBytes_outside {x : Nat} :
    ∀ {m : Memory} {a : Nat} {bytes : List Byte}, ¬(a ≤ x ∧ x < a + bytes.length) → (m.writeBytes a bytes).read x = m.read x
  | _, _, [], _ => rfl
  | m, a, b :: rest, h => by
    simp only [List.length_cons] at h
    rw [Memory.writeBytes, Memory.read_writeBytes_outside (by omega)]
    exact Memory.read_write_other b (by omega) m

/-- Inside the run each byte reads as written. -/
theorem Memory.read_writeBytes_inside :
    ∀ {m : Memory} {a j : Nat} {bytes : List Byte}, m.wf = true → (h : j < bytes.length) →
      (m.writeBytes a bytes).read (a + j) = bytes[j]
  | m, a, 0, b :: rest, hm, _ => by
    rw [Memory.writeBytes, Memory.read_writeBytes_outside (by omega)]
    simpa using Memory.read_write_same hm a b
  | m, a, j + 1, b :: rest, hm, h => by
    have hj : j < rest.length := by simpa using h
    have := Memory.read_writeBytes_inside (a := a + 1) (Memory.wf_write hm a b) hj
    rw [Memory.writeBytes, show a + (j + 1) = a + 1 + j by omega, this]
    rfl

/-- Writing some bytes of a run: each byte of memory is as it was, or is the run's byte at its place. -/
theorem Memory.read_writeSome {kept : Nat → Bool} {x : Nat} :
    ∀ {i : Nat} {m : Memory} {a : Nat} {bytes : List Byte}, m.wf = true →
      (Memory.writeSome kept i m a bytes).read x = m.read x ∨
        ∃ j, ∃ h : j < bytes.length, x = a + j ∧ (Memory.writeSome kept i m a bytes).read x = bytes[j]
  | _, _, _, [], _ => .inl rfl
  | i, m, a, b :: rest, hm => by
    have hstep : (if kept i = true then m.write a b else m).wf = true := by
      split
      · exact Memory.wf_write hm a b
      · exact hm
    rw [Memory.writeSome]
    rcases Memory.read_writeSome (kept := kept) (x := x) (i := i + 1) (a := a + 1) (bytes := rest) hstep with h | ⟨j, hj, hx, h⟩
    · rw [h]
      split
      · by_cases hxa : x = a
        · subst hxa
          exact .inr ⟨0, by simp, rfl, by simpa using Memory.read_write_same hm x b⟩
        · exact .inl (Memory.read_write_other b hxa m)
      · exact .inl rfl
    · exact .inr ⟨j + 1, by simpa using hj, by omega, by simpa using h⟩

/-- A run of writes lists no new address but its own. -/
theorem Memory.mem_writeBytes {c : Host.Cell} :
    ∀ {m : Memory} {a : Nat} {bytes : List Byte}, c ∈ m.writeBytes a bytes → c ∈ m ∨ (a ≤ c.1 ∧ c.1 < a + bytes.length)
  | _, _, [], h => .inl h
  | m, a, b :: rest, h => by
    rcases Memory.mem_writeBytes (m := m.write a b) h with h | h
    · rcases Memory.mem_write h with h | h
      · exact .inl h
      · subst h
        exact .inr ⟨Nat.le_refl _, by simp⟩
    · exact .inr ⟨by omega, by simp only [List.length_cons]; omega⟩

/-- The same for some bytes of a run. -/
theorem Memory.mem_writeSome {kept : Nat → Bool} {c : Host.Cell} :
    ∀ {i : Nat} {m : Memory} {a : Nat} {bytes : List Byte}, c ∈ Memory.writeSome kept i m a bytes →
      c ∈ m ∨ (a ≤ c.1 ∧ c.1 < a + bytes.length)
  | _, _, _, [], h => .inl h
  | i, m, a, b :: rest, h => by
    rw [Memory.writeSome] at h
    rcases Memory.mem_writeSome h with h | h
    · split at h
      · rcases Memory.mem_write h with h | h
        · exact .inl h
        · subst h
          exact .inr ⟨Nat.le_refl _, by simp⟩
      · exact .inl h
    · exact .inr ⟨by omega, by simp only [List.length_cons]; omega⟩

@[simp] theorem Memory.length_readBytes (m : Memory) : ∀ a n : Nat, (m.readBytes a n).length = n
  | _, 0 => rfl
  | a, n + 1 => by simp [Memory.readBytes, Memory.length_readBytes m (a + 1) n]

/-- The bytes of a range, by index. -/
theorem Memory.getElem_readBytes (m : Memory) :
    ∀ {a n j : Nat} (h : j < (m.readBytes a n).length), (m.readBytes a n)[j] = m.read (a + j)
  | _, 0, _, h => absurd h (by simp [Memory.readBytes])
  | _, _ + 1, 0, _ => rfl
  | a, n + 1, j + 1, h => by
    have hj : j < (m.readBytes (a + 1) n).length := by simpa [Memory.readBytes] using h
    have := Memory.getElem_readBytes m hj
    simp only [Memory.readBytes, List.getElem_cons_succ, this]
    congr 1
    omega

/-- A range whose bytes read alike gives the same bytes. -/
theorem Memory.readBytes_congr {m m' : Memory} {a n : Nat} (h : ∀ x, a ≤ x → x < a + n → m.read x = m'.read x) :
    m.readBytes a n = m'.readBytes a n := by
  apply List.ext_getElem (by simp)
  intro j h1 h2
  rw [Memory.getElem_readBytes, Memory.getElem_readBytes]
  exact h _ (by omega) (by simp at h1; omega)

/-- What was written is read back. -/
theorem Memory.readBytes_writeBytes {m : Memory} (hm : m.wf = true) (a : Nat) (bytes : List Byte) :
    (m.writeBytes a bytes).readBytes a bytes.length = bytes := by
  apply List.ext_getElem (by simp)
  intro j h1 h2
  rw [Memory.getElem_readBytes, Memory.read_writeBytes_inside hm h2]

/-- A range read in two parts. -/
theorem Memory.readBytes_add (m : Memory) : ∀ a n k : Nat, m.readBytes a (n + k) = m.readBytes a n ++ m.readBytes (a + n) k
  | a, 0, k => by simp [Memory.readBytes]
  | a, n + 1, k => by
    rw [show n + 1 + k = n + k + 1 by omega, Memory.readBytes, Memory.readBytes_add m (a + 1) n k, Memory.readBytes,
      show a + 1 + n = a + (n + 1) by omega]
    rfl

end Sys2Proof.Machine
end

