-- ==== Sys2Proof/Laws/State.lean ====
section
/-! SUPPORT. One lemma per field of State per named update, all true by unfolding the update once. -/

namespace Sys2Proof.Machine

@[simp] theorem setMem_memSize (m : Memory) (s : State) : (setMem m s).memSize = s.memSize := rfl
@[simp] theorem setMem_mem (m : Memory) (s : State) : (setMem m s).mem = m := rfl
@[simp] theorem setMem_op (m : Memory) (s : State) : (setMem m s).op = s.op := rfl
@[simp] theorem setMem_res (m : Memory) (s : State) : (setMem m s).res = s.res := rfl
@[simp] theorem setMem_done (m : Memory) (s : State) : (setMem m s).done = s.done := rfl
@[simp] theorem setMem_code (m : Memory) (s : State) : (setMem m s).code = s.code := rfl
@[simp] theorem setMem_declbad (m : Memory) (s : State) : (setMem m s).declbad = s.declbad := rfl
@[simp] theorem setMem_seq (m : Memory) (s : State) : (setMem m s).seq = s.seq := rfl
@[simp] theorem setMem_program (m : Memory) (s : State) : (setMem m s).program = s.program := rfl
@[simp] theorem setMem_replies (m : Memory) (s : State) : (setMem m s).replies = s.replies := rfl
@[simp] theorem setMem_freeIdx (m : Memory) (s : State) : (setMem m s).freeIdx = s.freeIdx := rfl

@[simp] theorem setRes_memSize (r : Results) (s : State) : (setRes r s).memSize = s.memSize := rfl
@[simp] theorem setRes_mem (r : Results) (s : State) : (setRes r s).mem = s.mem := rfl
@[simp] theorem setRes_op (r : Results) (s : State) : (setRes r s).op = s.op := rfl
@[simp] theorem setRes_res (r : Results) (s : State) : (setRes r s).res = r := rfl
@[simp] theorem setRes_done (r : Results) (s : State) : (setRes r s).done = s.done := rfl
@[simp] theorem setRes_code (r : Results) (s : State) : (setRes r s).code = s.code := rfl
@[simp] theorem setRes_declbad (r : Results) (s : State) : (setRes r s).declbad = s.declbad := rfl
@[simp] theorem setRes_seq (r : Results) (s : State) : (setRes r s).seq = s.seq := rfl
@[simp] theorem setRes_program (r : Results) (s : State) : (setRes r s).program = s.program := rfl
@[simp] theorem setRes_replies (r : Results) (s : State) : (setRes r s).replies = s.replies := rfl
@[simp] theorem setRes_freeIdx (r : Results) (s : State) : (setRes r s).freeIdx = s.freeIdx := rfl

@[simp] theorem setDeclbad_memSize (b : Bool) (s : State) : (setDeclbad b s).memSize = s.memSize := rfl
@[simp] theorem setDeclbad_mem (b : Bool) (s : State) : (setDeclbad b s).mem = s.mem := rfl
@[simp] theorem setDeclbad_op (b : Bool) (s : State) : (setDeclbad b s).op = s.op := rfl
@[simp] theorem setDeclbad_res (b : Bool) (s : State) : (setDeclbad b s).res = s.res := rfl
@[simp] theorem setDeclbad_done (b : Bool) (s : State) : (setDeclbad b s).done = s.done := rfl
@[simp] theorem setDeclbad_code (b : Bool) (s : State) : (setDeclbad b s).code = s.code := rfl
@[simp] theorem setDeclbad_declbad (b : Bool) (s : State) : (setDeclbad b s).declbad = b := rfl
@[simp] theorem setDeclbad_seq (b : Bool) (s : State) : (setDeclbad b s).seq = s.seq := rfl
@[simp] theorem setDeclbad_program (b : Bool) (s : State) : (setDeclbad b s).program = s.program := rfl
@[simp] theorem setDeclbad_replies (b : Bool) (s : State) : (setDeclbad b s).replies = s.replies := rfl
@[simp] theorem setDeclbad_freeIdx (b : Bool) (s : State) : (setDeclbad b s).freeIdx = s.freeIdx := rfl

@[simp] theorem addReply_memSize (r : Reply) (s : State) : (addReply r s).memSize = s.memSize := rfl
@[simp] theorem addReply_mem (r : Reply) (s : State) : (addReply r s).mem = s.mem := rfl
@[simp] theorem addReply_op (r : Reply) (s : State) : (addReply r s).op = s.op := rfl
@[simp] theorem addReply_res (r : Reply) (s : State) : (addReply r s).res = s.res := rfl
@[simp] theorem addReply_done (r : Reply) (s : State) : (addReply r s).done = s.done := rfl
@[simp] theorem addReply_code (r : Reply) (s : State) : (addReply r s).code = s.code := rfl
@[simp] theorem addReply_declbad (r : Reply) (s : State) : (addReply r s).declbad = s.declbad := rfl
@[simp] theorem addReply_seq (r : Reply) (s : State) : (addReply r s).seq = s.seq := rfl
@[simp] theorem addReply_program (r : Reply) (s : State) : (addReply r s).program = s.program := rfl
@[simp] theorem addReply_replies (r : Reply) (s : State) : (addReply r s).replies = s.replies ++ [r] := rfl
@[simp] theorem addReply_freeIdx (r : Reply) (s : State) : (addReply r s).freeIdx = s.freeIdx := rfl

@[simp] theorem takeFree_memSize (s : State) : (takeFree s).memSize = s.memSize := rfl
@[simp] theorem takeFree_mem (s : State) : (takeFree s).mem = s.mem := rfl
@[simp] theorem takeFree_op (s : State) : (takeFree s).op = s.op := rfl
@[simp] theorem takeFree_res (s : State) : (takeFree s).res = s.res := rfl
@[simp] theorem takeFree_done (s : State) : (takeFree s).done = s.done := rfl
@[simp] theorem takeFree_code (s : State) : (takeFree s).code = s.code := rfl
@[simp] theorem takeFree_declbad (s : State) : (takeFree s).declbad = s.declbad := rfl
@[simp] theorem takeFree_seq (s : State) : (takeFree s).seq = s.seq := rfl
@[simp] theorem takeFree_program (s : State) : (takeFree s).program = s.program := rfl
@[simp] theorem takeFree_replies (s : State) : (takeFree s).replies = s.replies := rfl
@[simp] theorem takeFree_freeIdx (s : State) : (takeFree s).freeIdx = s.freeIdx + 1 := rfl

@[simp] theorem beginCommand_memSize (s : State) : (beginCommand s).memSize = s.memSize := rfl
@[simp] theorem beginCommand_mem (s : State) : (beginCommand s).mem = s.mem := rfl
@[simp] theorem beginCommand_op (s : State) : (beginCommand s).op = s.op := rfl
@[simp] theorem beginCommand_res (s : State) : (beginCommand s).res = Results.zero := rfl
@[simp] theorem beginCommand_done (s : State) : (beginCommand s).done = false := rfl
@[simp] theorem beginCommand_code (s : State) : (beginCommand s).code = .ok := rfl
@[simp] theorem beginCommand_declbad (s : State) : (beginCommand s).declbad = false := rfl
@[simp] theorem beginCommand_seq (s : State) : (beginCommand s).seq = s.seq := rfl
@[simp] theorem beginCommand_program (s : State) : (beginCommand s).program = s.program := rfl
@[simp] theorem beginCommand_replies (s : State) : (beginCommand s).replies = s.replies := rfl
@[simp] theorem beginCommand_freeIdx (s : State) : (beginCommand s).freeIdx = s.freeIdx := rfl

@[simp] theorem startCommand_memSize (w : Word) (s : State) : (startCommand w s).memSize = s.memSize := rfl
@[simp] theorem startCommand_mem (w : Word) (s : State) : (startCommand w s).mem = s.mem := rfl
@[simp] theorem startCommand_op (w : Word) (s : State) : (startCommand w s).op = s.op := rfl
@[simp] theorem startCommand_res (w : Word) (s : State) : (startCommand w s).res = Results.zero := rfl
@[simp] theorem startCommand_done (w : Word) (s : State) : (startCommand w s).done = false := rfl
@[simp] theorem startCommand_code (w : Word) (s : State) : (startCommand w s).code = .ok := rfl
@[simp] theorem startCommand_declbad (w : Word) (s : State) : (startCommand w s).declbad = false := rfl
@[simp] theorem startCommand_seq (w : Word) (s : State) : (startCommand w s).seq = .busy (Working.init w) := rfl
@[simp] theorem startCommand_program (w : Word) (s : State) : (startCommand w s).program = s.program := rfl
@[simp] theorem startCommand_replies (w : Word) (s : State) : (startCommand w s).replies = s.replies := rfl
@[simp] theorem startCommand_freeIdx (w : Word) (s : State) : (startCommand w s).freeIdx = s.freeIdx := rfl

@[simp] theorem finish_memSize (c : Code) (s : State) : (finish c s).memSize = s.memSize := rfl
@[simp] theorem finish_mem (c : Code) (s : State) : (finish c s).mem = s.mem := rfl
@[simp] theorem finish_op (c : Code) (s : State) : (finish c s).op = s.op := rfl
@[simp] theorem finish_res (c : Code) (s : State) : (finish c s).res = s.res := rfl
@[simp] theorem finish_done (c : Code) (s : State) : (finish c s).done = true := rfl
@[simp] theorem finish_code (c : Code) (s : State) : (finish c s).code = c := rfl
@[simp] theorem finish_declbad (c : Code) (s : State) : (finish c s).declbad = s.declbad := rfl
@[simp] theorem finish_seq (c : Code) (s : State) : (finish c s).seq = .idle := rfl
@[simp] theorem finish_program (c : Code) (s : State) : (finish c s).program = s.program := rfl
@[simp] theorem finish_replies (c : Code) (s : State) : (finish c s).replies = s.replies := rfl
@[simp] theorem finish_freeIdx (c : Code) (s : State) : (finish c s).freeIdx = s.freeIdx := rfl

@[simp] theorem resetBlock_op (s : State) : (resetBlock s).op = Operands.zero := rfl
@[simp] theorem resetBlock_res (s : State) : (resetBlock s).res = Results.zero := rfl
@[simp] theorem resetBlock_done (s : State) : (resetBlock s).done = false := rfl
@[simp] theorem resetBlock_code (s : State) : (resetBlock s).code = .ok := rfl
@[simp] theorem resetBlock_declbad (s : State) : (resetBlock s).declbad = false := rfl
@[simp] theorem resetBlock_seq (s : State) : (resetBlock s).seq = .idle := rfl

@[simp] theorem busy_idle (s : State) (h : s.seq = .idle) : busy s = false := by simp [busy, h]

@[simp] theorem busy_busy (s : State) (w : Working) (h : s.seq = .busy w) : busy s = true := by simp [busy, h]

@[simp] theorem busy_setMem (m : Memory) (s : State) : busy (setMem m s) = busy s := rfl
@[simp] theorem busy_setRes (r : Results) (s : State) : busy (setRes r s) = busy s := rfl
@[simp] theorem busy_setDeclbad (b : Bool) (s : State) : busy (setDeclbad b s) = busy s := rfl
@[simp] theorem busy_addReply (r : Reply) (s : State) : busy (addReply r s) = busy s := rfl
@[simp] theorem busy_takeFree (s : State) : busy (takeFree s) = busy s := rfl
@[simp] theorem busy_beginCommand (s : State) : busy (beginCommand s) = busy s := rfl
@[simp] theorem busy_startCommand (w : Word) (s : State) : busy (startCommand w s) = true := rfl
@[simp] theorem busy_finish (c : Code) (s : State) : busy (finish c s) = false := rfl
@[simp] theorem busy_resetBlock (s : State) : busy (resetBlock s) = false := rfl
@[simp] theorem Working.init_command (w : Word) : (Working.init w).command = w := rfl

/-- Clearing twice is clearing once: a started command is executed as if it were started now (log 2). -/
@[simp] theorem beginCommand_beginCommand (s : State) : beginCommand (beginCommand s) = beginCommand s := rfl

end Sys2Proof.Machine
end

