-- ==== Sys2Proof/Laws/Hex.lean ====
section
/-! SUPPORT. Digits and fixed-width fields. -/

namespace Sys2Proof.Machine

/-- A digit's value is at most 15 (30_encoding R78). -/
theorem hexval_lt {c : Byte} {d : Nat} (h : hexval c = some d) : d < 16 := by
  unfold hexval at h
  split at h
  · injection h with h; omega
  · split at h
    · injection h with h; omega
    · split at h
      · injection h with h; omega
      · cases h

/-- A rendered digit parses to its value (30_encoding R78, R80). -/
theorem hexval_hexdigit : ∀ d : BitVec 4, hexval (hexdigit d) = some d.toNat := by decide

/-- Rendering is injective on digits. -/
theorem hexdigit_injective {d e : BitVec 4} (h : hexdigit d = hexdigit e) : d = e := by
  have := congrArg hexval h
  rw [hexval_hexdigit, hexval_hexdigit] at this
  exact BitVec.eq_of_toNat_eq (Option.some.inj this)

/-- One more byte in front of a field. -/
theorem parseHex_cons (c : Byte) (rest : List Byte) :
    parseHex (c :: rest) =
      match hexval c, parseHex rest with
      | some d, some v => some (d * 16 ^ rest.length + v)
      | _, _ => none := rfl

/-- A field is malformed as soon as one byte is no digit (30_encoding R79). -/
theorem parseHex_eq_none_iff : ∀ {t : List Byte}, parseHex t = none ↔ ∃ c ∈ t, hexval c = none
  | [] => by simp [parseHex]
  | c :: rest => by
    have ih := parseHex_eq_none_iff (t := rest)
    rw [parseHex_cons]
    cases hc : hexval c with
    | none => simp [hc]
    | some d =>
      cases hr : parseHex rest with
      | none =>
        obtain ⟨x, hx, hx'⟩ := ih.mp hr
        simp only [List.mem_cons, true_iff]
        exact ⟨x, .inr hx, hx'⟩
      | some v =>
        have hno : ¬∃ c ∈ rest, hexval c = none := fun h => by
          have := ih.mpr h
          rw [hr] at this
          cases this
        simp only [List.mem_cons, exists_eq_or_imp, hc, reduceCtorEq, false_or, false_iff]
        exact hno

/-- A field of `n` bytes has a value below 16^n, so it cannot overflow its register (30_encoding R79). -/
theorem parseHex_lt : ∀ {t : List Byte} {v : Nat}, parseHex t = some v → v < 16 ^ t.length
  | [], v, h => by
    simp only [parseHex, Option.some.injEq] at h
    simp [← h]
  | c :: rest, v, h => by
    rw [parseHex_cons] at h
    cases hc : hexval c with
    | none => simp [hc] at h
    | some d =>
      cases hr : parseHex rest with
      | none => simp [hc, hr] at h
      | some w =>
        simp only [hc, hr, Option.some.injEq] at h
        have hd := hexval_lt hc
        have hw := parseHex_lt hr
        subst h
        rw [List.length_cons, Nat.pow_succ]
        have : d * 16 ^ rest.length ≤ 15 * 16 ^ rest.length := Nat.mul_le_mul_right _ (by omega)
        omega

/-- Equal values of equally long fields come from equal digits (30_encoding R79: the positions fix the weights). -/
theorem parseHex_digits_eq : ∀ {t u : List Byte} {v : Nat}, t.length = u.length → parseHex t = some v → parseHex u = some v →
    t.map hexval = u.map hexval
  | [], [], _, _, _, _ => rfl
  | c :: t, e :: u, v, hl, ht, hu => by
    have hl' : t.length = u.length := by simpa using hl
    rw [parseHex_cons] at ht hu
    cases hc : hexval c with
    | none => simp [hc] at ht
    | some d =>
      cases he : hexval e with
      | none => simp [he] at hu
      | some d' =>
        cases htt : parseHex t with
        | none => simp [hc, htt] at ht
        | some w =>
          cases huu : parseHex u with
          | none => simp [he, huu] at hu
          | some w' =>
            simp only [hc, htt, Option.some.injEq] at ht
            simp only [he, huu, Option.some.injEq] at hu
            have hw := parseHex_lt htt
            have hw' := parseHex_lt huu
            rw [← hl'] at hu hw'
            generalize 16 ^ t.length = p at *
            have hd : d = d' := by
              have hp : 0 < p := by omega
              have h1 : (d * p + w) / p = d := by
                rw [Nat.add_comm, Nat.add_mul_div_right _ _ hp, Nat.div_eq_of_lt hw, Nat.zero_add]
              have h2 : (d' * p + w') / p = d' := by
                rw [Nat.add_comm, Nat.add_mul_div_right _ _ hp, Nat.div_eq_of_lt hw', Nat.zero_add]
              rw [← h1, ← h2, ht, hu]
            subst hd
            have hww : w' = w := by omega
            subst hww
            simp only [List.map_cons, hc, he]
            rw [parseHex_digits_eq hl' htt huu]

@[simp] theorem length_hex4 (v : Half) : (hex4 v).length = 4 := rfl

@[simp] theorem length_hex2 (v : Byte) : (hex2 v).length = 2 := rfl

/-- Four digits of a 16-bit value by weight. -/
theorem nibbles_of_half (v : Half) :
    (v.extractLsb' 12 4).toNat * 4096 + (v.extractLsb' 8 4).toNat * 256 + (v.extractLsb' 4 4).toNat * 16
      + (v.extractLsb' 0 4).toNat = v.toNat := by
  have := v.isLt
  simp only [BitVec.extractLsb'_toNat, Nat.shiftRight_eq_div_pow]
  omega

/-- Two digits of an 8-bit value by weight. -/
theorem nibbles_of_byte (v : Byte) :
    (v.extractLsb' 4 4).toNat * 16 + (v.extractLsb' 0 4).toNat = v.toNat := by
  have := v.isLt
  simp only [BitVec.extractLsb'_toNat, Nat.shiftRight_eq_div_pow]
  omega

end Sys2Proof.Machine
end

