-- ==== Sys2Proof/Laws/Wire.lean ====
section
/-! SUPPORT. Slices, the marker search, the frame's fields. -/

namespace Sys2Proof.Machine

/-- Slices by index. -/
theorem length_slice (b : List Byte) (i j : Nat) : (slice b i j).length = min (j - i) (b.length - i) := by
  simp [slice]

/-- The slice of a concatenation that lies in its first part. -/
theorem slice_append_left {b c : List Byte} {i j : Nat} (h : j ≤ b.length) : slice (b ++ c) i j = slice b i j := by
  unfold slice
  by_cases hi : i ≤ b.length
  · rw [List.drop_append_of_le_length hi, List.take_append_of_le_length (by simp; omega)]
  · rw [show j - i = 0 by omega]
    simp

/-- The slice of a concatenation that lies in its second part. -/
theorem slice_append_right {b c : List Byte} {i j : Nat} (h : b.length ≤ i) :
    slice (b ++ c) i j = slice c (i - b.length) (j - b.length) := by
  unfold slice
  rw [List.drop_append, List.drop_eq_nil_of_le h, List.nil_append, show j - b.length - (i - b.length) = j - i by omega]

/-- A slice of what is left after dropping. -/
theorem slice_drop (b : List Byte) (k i j : Nat) : slice (b.drop k) i j = slice b (k + i) (k + j) := by
  unfold slice
  rw [List.drop_drop, show k + j - (k + i) = j - i by omega]

/-- The search from `m` is the search from 0, moved by `m`. -/
theorem findMarkerFrom_eq (buf : List Byte) : ∀ m, findMarkerFrom m buf = (findMarker buf).map (m + ·) := by
  induction buf with
  | nil => intro m; rfl
  | cons b rest ih =>
    intro m
    unfold findMarker findMarkerFrom
    by_cases h : (b :: rest).take 7 = marker
    · simp [h]
    · rw [if_neg h, if_neg h, ih (m + 1), ih (0 + 1), Option.map_map]
      congr 1
      funext k
      simp only [Function.comp]
      omega

/-- The search looks at the first byte, then at the rest. -/
theorem findMarker_cons (b : Byte) (rest : List Byte) :
    findMarker (b :: rest) = if (b :: rest).take 7 = marker then some 0 else (findMarker rest).map (1 + ·) := by
  unfold findMarker
  rw [findMarkerFrom, findMarkerFrom_eq rest (0 + 1)]
  rfl

/-- Bytes that begin with the marker have it at offset 0. -/
theorem findMarker_marker_append (t : List Byte) : findMarker (marker ++ t) = some 0 := by
  simp [marker, findMarker_cons]

/-- The length of a frame's encoding (41_encoder R121). -/
@[simp] theorem length_frameBytes (f : Frame) : (frameBytes f).length = 25 + f.payload.length := by
  simp [frameBytes, marker]
  omega

/-- encode has a value exactly for payloads that fit the length field (41_encoder R123). -/
theorem encodeFrame_eq_some_iff {f : Frame} {b : List Byte} :
    encodeFrame f = some b ↔ f.payload.length ≤ maxPayload ∧ frameBytes f = b := by
  unfold encodeFrame
  split <;> simp_all

/-- The four results of parse_packet, by the length and the header (43_packet_decoder R160). -/
theorem parsePacket_cases (t : List Byte) :
    (t.length < 14 ∧ parsePacket t = .waitHeader) ∨
    (14 ≤ t.length ∧ parseHeader t = none ∧ parsePacket t = .errHex) ∨
    (∃ h, 14 ≤ t.length ∧ parseHeader t = some h ∧ t.length < 18 + h.plen.toNat ∧ parsePacket t = .waitBody h) ∨
    (∃ h, 18 + h.plen.toNat ≤ t.length ∧ parseHeader t = some h ∧
      parsePacket t = .packet h (slice t 14 (14 + h.plen.toNat))
        (parseTrailer (slice t (14 + h.plen.toNat) (18 + h.plen.toNat))) (18 + h.plen.toNat)) := by
  unfold parsePacket
  split
  · exact .inl ⟨by assumption, rfl⟩
  · split
    · exact .inr (.inl ⟨by omega, by assumption, rfl⟩)
    · split
      · exact .inr (.inr (.inl ⟨_, by omega, by assumption, by omega, rfl⟩))
      · exact .inr (.inr (.inr ⟨_, by omega, by assumption, rfl⟩))

/-- The outcomes of decode, by the marker and the packet after it (45_stream_decode R190). -/
theorem decodeStream_cases (buf : List Byte) :
    (findMarker buf = none ∧ decodeStream buf = .waitMarker) ∨
    ∃ m, findMarker buf = some m ∧
      ((parsePacket (buf.drop (m + 7)) = .waitHeader ∧ decodeStream buf = .waitHeader m) ∨
       (parsePacket (buf.drop (m + 7)) = .errHex ∧ decodeStream buf = .errHex m) ∨
       (∃ h, parsePacket (buf.drop (m + 7)) = .waitBody h ∧ decodeStream buf = .waitBody m h) ∨
       (∃ h p decl nx, parsePacket (buf.drop (m + 7)) = .packet h p decl nx ∧
         ((decl = some (ccitt16 p) ∧ decodeStream buf = .frame m h p (ccitt16 p) (m + 7 + nx)) ∨
          (decl ≠ some (ccitt16 p) ∧ decodeStream buf = .errCrc m h decl (ccitt16 p))))) := by
  unfold decodeStream
  cases hm : findMarker buf with
  | none => exact .inl ⟨rfl, rfl⟩
  | some m =>
    refine .inr ⟨m, rfl, ?_⟩
    cases hp : parsePacket (buf.drop (m + 7)) with
    | waitHeader => simp [hp]
    | errHex => simp [hp]
    | waitBody h => simp [hp]
    | packet h p decl nx =>
      by_cases hd : decl = some (ccitt16 p) <;> simp [hp, hd]

end Sys2Proof.Machine
end

