-- ==== Sys2Proof/Laws/Commands.lean ====
section
/-! SUPPORT. What the shared operations of the commands and of the host can do, said once each. -/

namespace Sys2Proof.Machine

/-- The range check is the exact comparison (20_memory R55). -/
theorem inputFits_iff (s : State) : inputFits s = true ↔ s.op.base.toNat + s.op.len.toNat ≤ s.memSize := by
  simp [inputFits]

/-- The check of ENCODE's output range is the exact comparison (20_memory R55). -/
theorem outputFits_iff (s : State) : outputFits s = true ↔ s.op.outBase.toNat + 25 + s.op.len.toNat ≤ s.memSize := by
  unfold outputFits outputLength
  rw [decide_eq_true_iff, Nat.add_assoc]

/-- Two ranges overlap exactly when they share an address (20_memory R55). -/
theorem overlap_iff (a n b m : Nat) : overlap a n b m = true ↔ ∃ x, (a ≤ x ∧ x < a + n) ∧ (b ≤ x ∧ x < b + m) := by
  simp only [overlap, decide_eq_true_eq]
  constructor
  · intro h
    exact ⟨max a b, by omega, by omega⟩
  · rintro ⟨x, hx, hy⟩
    omega

/-- A command that passes the range check does its work on the input bytes. -/
theorem withInput_fits {s : State} (h : s.op.base.toNat + s.op.len.toNat ≤ s.memSize) (work : State → List Byte → State) :
    withInput s work = work s (inputBytes s) := by
  simp [withInput, inputFits, h]

/-- A command that fails the range check finishes with ERR_OPERAND. -/
theorem withInput_fails {s : State} (h : s.memSize < s.op.base.toNat + s.op.len.toNat) (work : State → List Byte → State) :
    withInput s work = finish .errOperand s := by
  have : ¬s.op.base.toNat + s.op.len.toNat ≤ s.memSize := by omega
  simp [withInput, inputFits, this]

@[simp] theorem inputBytes_beginCommand (s : State) : inputBytes (beginCommand s) = inputBytes s := rfl
@[simp] theorem encodeCode_beginCommand (s : State) : encodeCode (beginCommand s) = encodeCode s := rfl
@[simp] theorem encodeOutput_beginCommand (s : State) : encodeOutput (beginCommand s) = encodeOutput s := rfl
@[simp] theorem outputLength_beginCommand (s : State) : outputLength (beginCommand s) = outputLength s := rfl

/-- ENCODE's codes (41_encoder R122). -/
theorem encodeCode_cases (s : State) :
    (encodeCode s = .errOversize ∧ 0xFFFF < s.op.len.toNat) ∨
    (encodeCode s = .errOperand ∧ s.op.len.toNat ≤ 0xFFFF ∧ ¬EncodeRangesOk s) ∨
    (encodeCode s = .ok ∧ s.op.len.toNat ≤ 0xFFFF ∧ EncodeRangesOk s) := by
  unfold encodeCode maxPayload
  by_cases h1 : s.op.len.toNat > 0xFFFF
  · simp only [if_pos h1]; exact .inl ⟨trivial, h1⟩
  · have h1' : s.op.len.toNat ≤ 0xFFFF := by omega
    simp only [if_neg h1]
    by_cases h2 : inputFits s = false
    · refine .inr (.inl ⟨by simp [h2], h1', fun ok => ?_⟩)
      rw [(inputFits_iff s).mpr ok.1] at h2
      cases h2
    · simp only [if_neg h2]
      by_cases h3 : outputFits s = false
      · refine .inr (.inl ⟨by simp [h3], h1', fun ok => ?_⟩)
        rw [(outputFits_iff s).mpr ok.2.1] at h3
        cases h3
      · simp only [if_neg h3]
        rw [Bool.not_eq_false] at h2 h3
        rw [inputFits_iff] at h2
        rw [outputFits_iff] at h3
        by_cases h4 : rangesOverlap s = true
        · refine .inr (.inl ⟨by simp [h4], h1', fun ok => ?_⟩)
          obtain ⟨x, hx, hy⟩ := (overlap_iff _ _ _ _).mp h4
          exact ok.2.2 x ⟨⟨hx.1, by unfold outputLength at hx; omega⟩, hy⟩
        · refine .inr (.inr ⟨by simp [h4], h1', h2, h3, fun a ha => h4 ?_⟩)
          exact (overlap_iff _ _ _ _).mpr ⟨a, ⟨ha.1.1, by unfold outputLength; omega⟩, ha.2⟩

@[simp] theorem length_inputBytes (s : State) : (inputBytes s).length = s.op.len.toNat := by simp [inputBytes]

/-- What an ENCODE that passes its checks writes: the wire bytes of the operands' frame. -/
theorem encodeOutput_ok {s : State} (h : encodeCode s = .ok) (hl : s.op.len.toNat ≤ 0xFFFF) :
    encodeOutput s = frameBytes (operandFrame s) := by
  have : (operandFrame s).payload.length ≤ maxPayload := by simpa [operandFrame, maxPayload] using hl
  simp [encodeOutput, h, encodeFrame, this]

/-- An ENCODE that fails a check writes nothing. -/
theorem encodeOutput_not_ok {s : State} (h : encodeCode s ≠ .ok) : encodeOutput s = [] := by
  unfold encodeOutput
  split <;> simp_all

/-- ENCODE never writes outside its output range: its bytes are at most as many as the range has. -/
theorem length_encodeOutput_le (s : State) : (encodeOutput s).length ≤ outputLength s := by
  rcases encodeCode_cases s with ⟨h, -⟩ | ⟨h, -, -⟩ | ⟨h, hl, -⟩
  · simp [encodeOutput_not_ok (s := s) (by simp [h])]
  · simp [encodeOutput_not_ok (s := s) (by simp [h])]
  · simp [encodeOutput_ok h hl, operandFrame, outputLength]

/-- What ENCODE does: its checks fail and only the code and the cleared results are written, or they pass. -/
theorem execEncode_cases (s : State) :
    (encodeCode s ≠ .ok ∧ execEncode s = .next (finish (encodeCode s) (beginCommand s))) ∨
    (encodeCode s = .ok ∧ execEncode s =
      .next (finish .ok
        (setRes { Results.zero with outlen := BitVec.ofNat 32 (outputLength s), crcCalc := ccitt16 (inputBytes s) }
          (setMem (s.mem.writeBytes s.op.outBase.toNat (encodeOutput s)) (beginCommand s))))) := by
  unfold execEncode
  simp only [encodeCode_beginCommand]
  cases h : encodeCode s with
  | ok => exact .inr ⟨rfl, rfl⟩
  | _ => exact .inl ⟨by simp, rfl⟩

/-- The declared checksum goes into R_CRC_DECL or DECLBAD and nowhere else. -/
theorem setDeclared_eq (decl : Option Half) (s : State) (h0 : s.res.crcDecl = 0#16) (hb : s.declbad = false) :
    setDeclared decl s = setDeclbad decl.isNone (setRes { s.res with crcDecl := decl.getD 0#16 } s) := by
  cases s with
  | mk memSize mem op res done code declbad seq program replies freeIdx =>
    cases res
    cases decl <;> simp_all [setDeclared, setDeclbad, setRes]

/-- Every decoded command word has a meaning that ends in a next state: commands are never refused and never fault
(60_exceptions R238). -/
theorem exec_decodeCommand_next (w : Word) (s : State) : ∃ t, exec (decodeCommand w) s = .next t := by
  unfold decodeCommand
  split
  · exact ⟨_, rfl⟩
  · split
    · exact ⟨_, rfl⟩
    · exact ⟨_, rfl⟩
    · simp only [exec]
      rcases execEncode_cases s with ⟨-, h⟩ | ⟨-, h⟩ <;> exact ⟨_, h⟩
    · exact ⟨_, rfl⟩
    · exact ⟨_, rfl⟩
    · exact ⟨_, rfl⟩
    · exact ⟨_, rfl⟩
    · exact ⟨_, rfl⟩

/-- A host store that succeeds writes the bytes, and nothing but memory. -/
theorem hostStore_next {a : Nat} {bytes : List Byte} {s t : State} (h : hostStore a bytes s = .next t) :
    a + bytes.length ≤ s.memSize ∧ t = setMem (s.mem.writeBytes a bytes) s := by
  unfold hostStore at h
  split at h
  · cases h
  · split at h
    · cases h
    · injection h with h
      exact ⟨by omega, h.symm⟩

/-- A host load that succeeds adds a reply, and nothing else. -/
theorem hostLoad_next {a n : Nat} {s t : State} (h : hostLoad a n s = .next t) :
    a + n ≤ s.memSize ∧ t = addReply (.bytes a (s.mem.readBytes a n)) s := by
  unfold hostLoad at h
  split at h
  · cases h
  · split at h
    · cases h
    · injection h with h
      exact ⟨by omega, h.symm⟩

/-- Bytes that arrive are appended behind the decode buffer, or nothing happens. -/
theorem receive_next {bytes : List Byte} {s t : State} (h : receive bytes s = .next t) :
    t = s ∨ (s.op.base.toNat + s.op.len.toNat + bytes.length ≤ s.memSize ∧
      t = writeReg .opLen (BitVec.ofNat 32 (s.op.len.toNat + bytes.length))
        (setMem (s.mem.writeBytes (s.op.base.toNat + s.op.len.toNat) bytes) s)) := by
  unfold receive at h
  split at h
  · split at h
    · rename_i t' ht
      obtain ⟨hfit, rfl⟩ := hostStore_next ht
      injection h with h
      exact .inr ⟨hfit, h.symm⟩
    · cases h
    · cases h
  · injection h with h
    exact .inl h.symm

/-- While IDLE the host may store anywhere in memory. -/
theorem hostStore_idle {a : Nat} {bytes : List Byte} {s : State} (hi : s.seq = .idle) (h : a + bytes.length ≤ s.memSize) :
    hostStore a bytes s = .next (setMem (s.mem.writeBytes a bytes) s) := by
  have : ¬s.memSize < a + bytes.length := by omega
  simp [hostStore, this, touchesInput, touchesOutput, encodeRunning, busy, hi]

/-- The host's write touches the input range of a running command (20_memory R58). -/
theorem touchesInput_iff {s : State} {k : Working} (hk : s.seq = .busy k) (a n : Nat) :
    touchesInput s a n = true ↔ ∃ x, (a ≤ x ∧ x < a + n) ∧ InInput s x := by
  simp only [touchesInput, busy, hk, Bool.true_and, overlap_iff]
  exact Iff.rfl

/-- The host's access touches the output range of a running ENCODE (20_memory R58). -/
theorem touchesOutput_iff {s : State} {k : Working} (hk : s.seq = .busy k) (a n : Nat) :
    touchesOutput s a n = true ↔ ∃ x, (a ≤ x ∧ x < a + n) ∧ InRunningOutput k s x := by
  simp only [touchesOutput, encodeRunning, hk, Bool.and_eq_true, decide_eq_true_eq, overlap_iff]
  constructor
  · rintro ⟨hc, x, hx, h1, h2⟩
    exact ⟨x, hx, hc, h1, by unfold outputLength at h2; omega⟩
  · rintro ⟨x, hx, hc, h1, h2⟩
    exact ⟨hc, x, hx, h1, by unfold outputLength; omega⟩

/-- While BUSY the host may store outside the ranges in use (20_memory R58). -/
theorem hostStore_busy {a : Nat} {bytes : List Byte} {s : State} {k : Working} (hk : s.seq = .busy k)
    (h : a + bytes.length ≤ s.memSize)
    (free : ∀ x, a ≤ x → x < a + bytes.length → ¬InInput s x ∧ ¬InRunningOutput k s x) :
    hostStore a bytes s = .next (setMem (s.mem.writeBytes a bytes) s) := by
  have h1 : ¬s.memSize < a + bytes.length := by omega
  have h2 : ¬(touchesInput s a bytes.length = true) := fun ht => by
    obtain ⟨x, hx, hi⟩ := (touchesInput_iff hk _ _).mp ht
    exact (free x hx.1 hx.2).1 hi
  have h3 : ¬(touchesOutput s a bytes.length = true) := fun ht => by
    obtain ⟨x, hx, hi⟩ := (touchesOutput_iff hk _ _).mp ht
    exact (free x hx.1 hx.2).2 hi
  simp [hostStore, h1, h2, h3]

/-- While BUSY a store that touches a range in use stops (log 12). -/
theorem hostStore_touches {a : Nat} {bytes : List Byte} {s : State} {k : Working} (hk : s.seq = .busy k)
    (h : a + bytes.length ≤ s.memSize)
    (used : ∃ x, (a ≤ x ∧ x < a + bytes.length) ∧ (InInput s x ∨ InRunningOutput k s x)) :
    hostStore a bytes s = .fault (.hostTouchesRange a bytes.length) := by
  have h1 : ¬s.memSize < a + bytes.length := by omega
  obtain ⟨x, hx, hi | ho⟩ := used
  · simp [hostStore, h1, (touchesInput_iff hk a bytes.length).mpr ⟨x, hx, hi⟩]
  · simp [hostStore, h1, (touchesOutput_iff hk a bytes.length).mpr ⟨x, hx, ho⟩]

/-- The register numbers are 0 to 18, and a register's value is the one the table lists (10_state R21, R22, R29, R30). -/
theorem registerValues_ofNumber {n : Nat} {r : Reg} (h : Reg.ofNumber n = some r) (s : State) :
    (registerValues s)[n]? = some (regValue r s) := by
  unfold Reg.ofNumber at h
  split at h <;> first | (injection h with h; subst h; rfl) | cases h

/-- Above 18 there is no register. -/
theorem ofNumber_eq_none_iff (n : Nat) : Reg.ofNumber n = none ↔ 18 < n := by
  constructor
  · intro h
    by_contra hn
    have : n < 19 := by omega
    interval_cases n <;> cases h
  · intro h
    cases hr : Reg.ofNumber n with
    | none => rfl
    | some r =>
      have := registerValues_ofNumber hr State.reset
      rw [List.getElem?_eq_none (by simp [registerValues]; omega)] at this
      cases this

/-- A register write changes nothing but the operand registers, unless it is to CMD. -/
theorem writeReg_not_cmd {r : Reg} (hr : r ≠ .cmd) (v : Word) (s : State) :
    writeReg r v s = if busy s = true then s else { s with op := setOperand r v s.op } := by
  cases r <;> first | rfl | exact absurd rfl hr

/-- The three things a step can be. -/
theorem step_cases (s : State) :
    (∃ i t, fetch s = .command i t ∧ step s = exec i t) ∨
    (∃ a t, fetch s = .host a t ∧ step s = hostAccess a t) ∨ (fetch s = .nothing ∧ step s = .next s) := by
  unfold step
  cases h : fetch s with
  | command i t => exact .inl ⟨i, t, rfl, rfl⟩
  | host a t => exact .inr (.inl ⟨a, t, rfl, rfl⟩)
  | nothing => exact .inr (.inr ⟨rfl, rfl⟩)

/-- When the block moves, it runs its latched command; only the free counter may have moved on. -/
theorem fetch_command {s t : State} {i : Instr} (h : fetch s = .command i t) :
    ∃ w, s.seq = .busy w ∧ i = decodeCommand w.command ∧ (t = s ∨ t = takeFree s) := by
  unfold fetch at h
  split at h
  · unfold idleTurn at h
    split at h
    · cases h
    · split at h <;> cases h
    · cases h
  · rename_i w hw
    split at h
    · injection h with h1 h2
      exact ⟨w, hw, h1.symm, .inl h2.symm⟩
    · injection h with h1 h2
      exact ⟨w, hw, h1.symm, .inl h2.symm⟩
    · split at h
      · injection h with h1 h2
        exact ⟨w, hw, h1.symm, .inr h2.symm⟩
      · cases h

/-- When the host moves, it makes its oldest access, which leaves its program; the free counter has moved on if a command was
running. -/
theorem fetch_host {s t : State} {a : HostAccess} (h : fetch s = .host a t) :
    ∃ rest, s.program = a :: rest ∧ (t = { s with program := rest } ∨ t = { takeFree s with program := rest }) := by
  unfold fetch at h
  split at h
  · unfold idleTurn at h
    split at h
    · cases h
    · rename_i rest hp
      split at h
      · injection h with h1 h2
        exact ⟨rest, by rw [hp, h1], .inl h2.symm⟩
      · cases h
    · rename_i b rest _ hp
      injection h with h1 h2
      exact ⟨rest, by rw [hp, h1], .inl h2.symm⟩
  · split at h
    · cases h
    · cases h
    · rename_i b rest _ hp
      split at h
      · cases h
      · injection h with h1 h2
        exact ⟨rest, by rw [hp, h1], .inr h2.symm⟩

/-- Memory after reset is in canonical form. -/
theorem reset_mem_wf : State.reset.mem.wf = true := rfl

/-- A command word never decodes to a wire frame. -/
theorem decodeCommand_ne_wireFrame (w : Word) (dest src : Half) (typ : Byte) (payload : List Byte) :
    decodeCommand w ≠ .wireFrame dest src typ payload := by
  unfold decodeCommand
  split
  · simp
  · split <;> simp

/-- Everything a command or a reserved word can do (10_state R32, R40, 60_exceptions R221, R238): it finishes with a code,
DECLBAD and result registers, and memory is as before or has an ENCODE's output in it. -/
theorem exec_finishes {i : Instr} {s t : State} (hw : ∀ d sr ty p, i ≠ .wireFrame d sr ty p) (h : exec i s = .next t) :
    ∃ c b r m, t = finish c (setRes r (setDeclbad b (setMem m (beginCommand s)))) ∧
      (m = s.mem ∨
        (i = .encode ∧ encodeCode s = .ok ∧ m = s.mem.writeBytes s.op.outBase.toNat (encodeOutput s))) ∧
      (b = true → (c = .ok ∨ c = .errCrc) ∧ r.crcDecl = 0#16) ∧
      (c = .waitMarker ∨ c = .errOversize ∨ c = .errOperand ∨ c = .errCmd → r = Results.zero) ∧
      (c = .waitHeader ∨ c = .waitBody → r.next = 0#32) := by
  have ranged : ∀ work, Host.Outcome.next (φ := Fault) (ρ := Refusal) (withInput (beginCommand s) work) = .next t →
      t = finish .errOperand (beginCommand s) ∨ t = work (beginCommand s) (inputBytes s) := by
    intro work h
    injection h with h
    unfold withInput at h
    split at h
    · exact .inr h.symm
    · exact .inl h.symm
  have bare : ∀ c, t = finish c (beginCommand s) →
      t = finish c (setRes Results.zero (setDeclbad false (setMem s.mem (beginCommand s)))) := fun c h => h
  cases i with
  | crcCcitt =>
    rcases ranged _ h with h | h
    · exact ⟨_, _, _, _, bare _ h, .inl rfl, by simp, by simp, by simp⟩
    · exact ⟨.ok, false, _, s.mem, h, .inl rfl, by simp, by simp, by simp⟩
  | crcModbus =>
    rcases ranged _ h with h | h
    · exact ⟨_, _, _, _, bare _ h, .inl rfl, by simp, by simp, by simp⟩
    · exact ⟨.ok, false, _, s.mem, h, .inl rfl, by simp, by simp, by simp⟩
  | encode =>
    rcases execEncode_cases s with ⟨hc, he⟩ | ⟨hc, he⟩
    · simp only [exec, he] at h
      injection h with h
      exact ⟨_, _, _, _, bare _ h.symm, .inl rfl, by simp, by simp, by simp [Results.zero]⟩
    · simp only [exec, he] at h
      injection h with h
      exact ⟨.ok, false, _, _, h.symm, .inr ⟨rfl, hc, rfl⟩, by simp, by simp, by simp⟩
  | scan =>
    rcases ranged _ h with h | h
    · exact ⟨_, _, _, _, bare _ h, .inl rfl, by simp, by simp, by simp⟩
    · dsimp only at h
      split at h
      · exact ⟨_, _, _, _, bare _ h, .inl rfl, by simp, by simp, by simp⟩
      · exact ⟨.ok, false, _, s.mem, h, .inl rfl, by simp, by simp, by simp⟩
  | parse =>
    rcases ranged _ h with h | h
    · exact ⟨_, _, _, _, bare _ h, .inl rfl, by simp, by simp, by simp⟩
    · dsimp only at h
      cases hp : parsePacket (inputBytes s) with
      | waitHeader =>
        rw [hp] at h
        exact ⟨_, _, _, _, bare _ h, .inl rfl, by simp, by simp, by simp [Results.zero]⟩
      | errHex =>
        rw [hp] at h
        exact ⟨_, _, _, _, bare _ h, .inl rfl, by simp, by simp, by simp⟩
      | waitBody hd =>
        rw [hp] at h
        exact ⟨_, false, _, s.mem, h, .inl rfl, by simp, by simp, by simp [Results.withHeader, Results.zero]⟩
      | packet hd payload decl next =>
        rw [hp] at h
        dsimp only at h
        rw [setDeclared_eq _ _ rfl rfl] at h
        exact ⟨.ok, _, _, s.mem, h, .inl rfl, by cases decl <;> simp, by simp, by simp⟩
  | check =>
    rcases ranged _ h with h | h
    · exact ⟨_, _, _, _, bare _ h, .inl rfl, by simp, by simp, by simp⟩
    · refine ⟨_, false, _, s.mem, h, .inl rfl, by simp, ?_, ?_⟩ <;> split <;> simp
  | decode =>
    rcases ranged _ h with h | h
    · exact ⟨_, _, _, _, bare _ h, .inl rfl, by simp, by simp, by simp⟩
    · dsimp only at h
      cases ho : decodeStream (inputBytes s) with
      | errCrc m hd decl computed =>
        rw [ho] at h
        dsimp only at h
        rw [setDeclared_eq _ _ rfl rfl] at h
        exact ⟨.errCrc, _, _, s.mem, h, .inl rfl, by cases decl <;> simp, by simp, by simp⟩
      | _ =>
        rw [ho] at h
        exact ⟨_, false, _, s.mem, h, .inl rfl, by simp,
          by simp [StreamResult.code, Results.ofStream, remainderOffset, Results.zero],
          by simp [StreamResult.code, remainderOffset]⟩
  | reservedOp0 =>
    injection h with h
    exact ⟨_, _, _, _, bare _ h.symm, .inl rfl, by simp, by simp, by simp⟩
  | reservedHigh _ _ =>
    injection h with h
    exact ⟨_, _, _, _, bare _ h.symm, .inl rfl, by simp, by simp, by simp⟩
  | wireFrame d sr ty p => exact absurd rfl (hw d sr ty p)

end Sys2Proof.Machine
end

