-- ==== Sys2Proof/Laws/PerInstr.lean ====
section
/-! SUPPORT. EncodingLength: exactly the well-formed instructions have an encoding, and it has the length the spec gives it: 32
bits through CMD for a command (30_encoding R70), 25 + len bytes on the wire for a frame (30_encoding R74). One lemma per
constructor. -/

namespace Sys2Proof.Laws.EncodingLength

/-- The encoding's length in bytes (a command word has 4). -/
def encodedBytes : Encoded → Nat
  | .command _ => 4
  | .wire bytes => bytes.length

/-- The length 30_encoding gives the instruction. -/
def specBytes : Instr → Nat
  | .crcCcitt => 4
  | .crcModbus => 4
  | .encode => 4
  | .scan => 4
  | .parse => 4
  | .check => 4
  | .decode => 4
  | .reservedOp0 => 4
  | .reservedHigh _ _ => 4
  | .wireFrame _ _ _ payload => 25 + payload.length

/-- The encoder emits as many bytes as the spec says for a well-formed instruction, and nothing for any other term. -/
def Statement (i : Instr) : Prop :=
  (Sys2Proof.encode i).map encodedBytes = if i.wellFormed = true then some (specBytes i) else none

theorem crcCcitt : Statement .crcCcitt := rfl
theorem crcModbus : Statement .crcModbus := rfl
theorem encode : Statement .encode := rfl
theorem scan : Statement .scan := rfl
theorem parse : Statement .parse := rfl
theorem check : Statement .check := rfl
theorem decode : Statement .decode := rfl
theorem reservedOp0 : Statement .reservedOp0 := rfl
theorem reservedHigh (high : BitVec 29) (op : BitVec 3) : Statement (.reservedHigh high op) := by
  by_cases h : high = 0#29 <;> simp [Statement, Sys2Proof.encode, Instr.wellFormed, encodedBytes, specBytes, h]
theorem wireFrame (dest src : Half) (typ : Byte) (payload : List Byte) : Statement (.wireFrame dest src typ payload) := by
  by_cases h : payload.length ≤ maxPayload <;>
    simp [Statement, Sys2Proof.encode, Machine.encodeFrame, Instr.wellFormed, encodedBytes, specBytes, h]

end Sys2Proof.Laws.EncodingLength
end

