-- ==== Sys2Proof/Tests/Slice0.lean ====
section
/-! SUPPORT. Tests: ill-formed terms, words and frames written out from the encodings, the vectors of 95_test_vectors (at most
two per instruction, each one step), and for every statement with hypotheses a concrete state that meets them. -/

namespace Sys2Proof.Tests

open Sys2Proof Sys2Proof.Machine

-- One theorem at a time: the kernel checks of this file would each hold a thread.
set_option Elab.async false

/-! ## Small states -/

/-- The bytes of a text (00_scope R12). -/
def text (cs : List Char) : List Byte := cs.map fun c => BitVec.ofNat 8 c.toNat

/-- A block after reset with MEM_SIZE = 0x400 (95_test_vectors 2.9), bytes in memory and operands in the registers. -/
def machine (a : Nat) (bytes : List Byte) (op : Operands) : State :=
  { State.reset with memSize := 0x400, mem := Memory.writeBytes [] a bytes, op := op }

/-- The bytes are the input, from address 0. -/
def input (bytes : List Byte) : State := machine 0 bytes { Operands.zero with len := BitVec.ofNat 32 bytes.length }

/-- The input range alone. -/
def range (base len : Nat) : State :=
  machine 0 [] { Operands.zero with base := BitVec.ofNat 32 base, len := BitVec.ofNat 32 len }

/-- STATUS and the registers R_DEST to R_OUTLEN in a next state. -/
def seen (o : Host.Outcome State Fault Refusal) : Option (Nat × List Nat) :=
  match o with
  | .next t =>
    some ((statusWord t).toNat,
      [t.res.dest.toNat, t.res.src.toNat, t.res.typ.toNat, t.res.plen.toNat, t.res.poff.toNat, t.res.crcDecl.toNat,
        t.res.crcCalc.toNat, t.res.mpos.toNat, t.res.next.toNat, t.res.outlen.toNat])
  | .fault _ => none
  | .refused _ => none

/-- Memory in a next state. -/
def bytesSeen (a n : Nat) (o : Host.Outcome State Fault Refusal) : Option (List Byte) :=
  match o with
  | .next t => some (t.mem.readBytes a n)
  | .fault _ => none
  | .refused _ => none

/-- The outcome is a next state with the property. -/
def nextHas (o : Host.Outcome State Fault Refusal) (p : State → Bool) : Bool :=
  match o with
  | .next t => p t
  | .fault _ => false
  | .refused _ => false

/-- The block is running the command with word `w`. -/
def running (w : Word) (s : State) : State := startCommand w s

def hello : List Byte := text ['h', 'e', 'l', 'l', 'o']
def digits : List Byte := text ['1', '2', '3', '4', '5', '6', '7', '8', '9']

/-- The header of E1: destination 1, source 2, type 3, length 5. -/
def header1 : List Byte := text ['0', '0', '0', '1', '0', '0', '0', '2', '0', '3', '0', '0', '0', '5']

/-- Vector E1, byte by byte (95_test_vectors 2.4). -/
def e1 : List Byte :=
  [0x3D#8, 0x3D#8, 0x3D#8, 0x73#8, 0x73#8, 0x6E#8, 0x31#8, 0x30#8, 0x30#8, 0x30#8, 0x31#8, 0x30#8, 0x30#8, 0x30#8, 0x32#8]
    ++ [0x30#8, 0x33#8, 0x30#8, 0x30#8, 0x30#8, 0x35#8, 0x68#8, 0x65#8, 0x6C#8, 0x6C#8, 0x6F#8, 0x64#8, 0x32#8, 0x36#8, 0x65#8]

/-- Vector E3. -/
def e3 : List Byte :=
  marker ++ text ['1', '2', '3', '4', '0', '0', '0', '1', '0', '2', '0', '0', '0', '6', 't', '=', '2', '1', '.', '5', '1', '0',
    'b', '2']

/-- The frame of E1. -/
def frame1 : Frame := ⟨1#16, 2#16, 3#8, hello⟩

/-- The frame of E3. -/
def frame3 : Frame := ⟨0x1234#16, 1#16, 2#8, text ['t', '=', '2', '1', '.', '5']⟩

/-- Vector DV9: E1 with its last byte 65 changed to 64. -/
def dv9 : List Byte := marker ++ header1 ++ hello ++ text ['d', '2', '6', 'd']

/-- Vector DV11: E1 with trailer byte 64 changed to 74. -/
def dv11 : List Byte := marker ++ header1 ++ hello ++ text ['t', '2', '6', 'e']

/-- Vector DV14: a header with a `g`, all its 14 bytes there. -/
def dv14 : List Byte := marker ++ text ['0', '0', '0', 'g', '0', '0', '0', '2', '0', '3', '0', '0', '0', '5']

/-- A block set up as in PR2, to encode E1 at 0x100. -/
def sender : State :=
  machine 0 hello { Operands.zero with len := 5#32, dest := 1#16, src := 2#16, typ := 3#8, outBase := 0x100#32 }

/-! ## Ill-formed terms are refused, one for each check of WellFormed -/

theorem test_ill_formed_reserved_high : (Instr.reservedHigh 0#29 5#3).wellFormed = false := by decide

theorem test_ill_formed_payload (d s : Half) (t b : Byte) :
    (Instr.wireFrame d s t (List.replicate 65536 b)).wellFormed = false := by
  show decide ((List.replicate 65536 b).length ≤ maxPayload) = false
  rw [List.length_replicate]
  decide

/-- 41_encoder R123: an oversized payload has no encoding. -/
theorem test_encode_oversized_frame (d s : Half) (t b : Byte) :
    Sys2Proof.encode (.wireFrame d s t (List.replicate 65536 b)) = none := by
  have : ¬(List.replicate 65536 b).length ≤ maxPayload := by
    rw [List.length_replicate]
    decide
  simp only [Sys2Proof.encode, encodeFrame, this, if_false, Option.map_none]

/-! ## Decoding: the words of 30_encoding R72 and R90 bit by bit, vector E1, and each reason to reject wire bytes -/

theorem test_decode_crcCcitt : Sys2Proof.decode (.command 0b00000000000000000000000000000001#32) = .instr .crcCcitt := by decide
theorem test_decode_crcModbus : Sys2Proof.decode (.command 0b00000000000000000000000000000010#32) = .instr .crcModbus := by decide
theorem test_decode_encode : Sys2Proof.decode (.command 0b00000000000000000000000000000011#32) = .instr .encode := by decide
theorem test_decode_scan : Sys2Proof.decode (.command 0b00000000000000000000000000000100#32) = .instr .scan := by decide
theorem test_decode_parse : Sys2Proof.decode (.command 0b00000000000000000000000000000101#32) = .instr .parse := by decide
theorem test_decode_check : Sys2Proof.decode (.command 0b00000000000000000000000000000110#32) = .instr .check := by decide
theorem test_decode_decode : Sys2Proof.decode (.command 0b00000000000000000000000000000111#32) = .instr .decode := by decide
theorem test_decode_reservedOp0 : Sys2Proof.decode (.command 0b00000000000000000000000000000000#32) = .instr .reservedOp0 := by
  decide
theorem test_decode_reservedHigh :
    Sys2Proof.decode (.command 0b10000000000000000000000000000001#32)
      = .instr (.reservedHigh 0b10000000000000000000000000000#29 0b001#3) := by decide
theorem test_decode_reservedHigh_lowest :
    Sys2Proof.decode (.command 0b00000000000000000000000000001000#32) = .instr (.reservedHigh 1#29 0#3) := by decide
theorem test_decode_wireFrame : Sys2Proof.decode (.wire e1) = .instr (.wireFrame 1#16 2#16 3#8 hello) := by decide +kernel

theorem test_reject_noMarker : Sys2Proof.decode (.wire hello) = .rejected .noMarker := by decide +kernel
theorem test_reject_markerNotFirst : Sys2Proof.decode (.wire (0x3D#8 :: e1)) = .rejected .markerNotFirst := by decide +kernel
theorem test_reject_headerIncomplete : Sys2Proof.decode (.wire (e1.take 20)) = .rejected .headerIncomplete := by decide +kernel
theorem test_reject_headerNotHex : Sys2Proof.decode (.wire dv14) = .rejected .headerNotHex := by decide +kernel
theorem test_reject_bodyIncomplete : Sys2Proof.decode (.wire (e1.take 29)) = .rejected .bodyIncomplete := by decide +kernel
theorem test_reject_checksumMismatch : Sys2Proof.decode (.wire dv9) = .rejected .checksumMismatch := by decide +kernel
theorem test_reject_bytesAfterFrame : Sys2Proof.decode (.wire (e1 ++ [0x30#8])) = .rejected .bytesAfterFrame := by decide +kernel

/-! ## The pure functions (95_test_vectors 2.1 to 2.3, and the single-step checks) -/

/-- 2.1, single-step check. -/
theorem test_ccittBit : ccittBit 0xFFFF#16 false = 0xEFDF#16 ∧ ccittBit 0x4E9B#16 false = 0x9D36#16 := by decide +kernel

/-- V6, V7: the bit order. -/
theorem test_ccitt_bit_order : ccitt16 [0x01#8] = 0xF1D1#16 ∧ ccitt16 [0x80#8] = 0x7078#16 := by decide +kernel

/-- V18, V18a: the bit order. -/
theorem test_modbus_bit_order :
    Machine.crcModbus [0x01#8] = 0x807E#16 ∧ Machine.crcModbus [0x80#8] = 0xE0BE#16 := by decide +kernel

/-- H2, H7, H8. -/
theorem test_hex : hex4 0xABCD#16 = text ['a', 'b', 'c', 'd'] ∧ parseHex (text ['1', '2', '3', '4']) = some 4660 ∧
    parseHex (text ['+', '0', '0', '1']) = none := by decide +kernel

/-- H10: the bytes just outside each digit range. -/
theorem test_hexval_edges : [0x2F#8, 0x3A#8, 0x40#8, 0x47#8, 0x60#8, 0x67#8, 0x80#8].map hexval = List.replicate 7 none := by
  decide +kernel

/-! ## The instructions, at most two tests each -/

/-- V8. -/
theorem test_crcCcitt_hello : seen (exec .crcCcitt (input hello)) = some (0x002, [0, 0, 0, 0, 0, 0, 0xD26E, 0, 0, 0]) := by
  decide +kernel

/-- 2.1, command level: one byte at MEM_SIZE does not exist (X4's status). -/
theorem test_crcCcitt_outside : seen (exec .crcCcitt (range 0x400 1)) = some (0x072, [0, 0, 0, 0, 0, 0, 0, 0, 0, 0]) := by
  decide +kernel

/-- V13. -/
theorem test_crcModbus_digits : seen (exec .crcModbus (input digits)) = some (0x002, [0, 0, 0, 0, 0, 0, 0x4B37, 0, 0, 0]) := by
  decide +kernel

/-- V14 and 20_memory R55: an empty range at the end of memory. -/
theorem test_crcModbus_empty_at_end :
    seen (exec .crcModbus (range 0x400 0)) = some (0x002, [0, 0, 0, 0, 0, 0, 0xFFFF, 0, 0, 0]) := by decide +kernel

/-- PR2: the 30 bytes of E1 at 0x100, R_OUTLEN and R_CRC_CALC. -/
theorem test_encode_e1 : bytesSeen 0x100 30 (exec .encode sender) = some e1 ∧
    seen (exec .encode sender) = some (0x002, [0, 0, 0, 0, 0, 0, 0xD26E, 0, 0, 30]) := by decide +kernel

/-- X6: the oversize test comes before the range test. -/
theorem test_encode_oversize : seen (exec .encode (range 0xFFFFFFFF 0x10000)) = some (0x062, [0, 0, 0, 0, 0, 0, 0, 0, 0, 0]) := by
  decide +kernel

/-- F8: overlapping marks, the first match is at 8. -/
theorem test_scan_f8 : seen (exec .scan (input (text ['n', 'o', 'i', 's', 'e', '=', '=', '='] ++ e1)))
    = some (0x002, [0, 0, 0, 0, 0, 0, 0, 8, 15, 0]) := by decide +kernel

/-- F4: no marker. -/
theorem test_scan_none : seen (exec .scan (input (text ['=', '=', '=', '=', '=', 's', 's', 'n'])))
    = some (0x012, [0, 0, 0, 0, 0, 0, 0, 0, 0, 0]) := by decide +kernel

/-- P10: uppercase digits. -/
theorem test_parse_p10 :
    seen (exec .parse (input (text ['0', '0', 'F', 'F', 'A', 'B', 'C', 'D', '1', 'A', '0', '0', '0', '2', 'h', 'i', '6', '2',
      '0', '3']))) = some (0x002, [255, 43981, 26, 2, 14, 0x6203, 0, 0, 20, 0]) := by decide +kernel

/-- X12 with P6: PARSE does not validate, but marks the trailer. -/
theorem test_parse_p6 :
    seen (exec .parse (input (text ['0', '0', '0', '1', '0', '0', '0', '2', '0', '3', '0', '0', '0', '0', 'z', 'z', 'z', 'z'])))
      = some (0x102, [1, 2, 3, 0, 14, 0, 0, 0, 18, 0]) := by decide +kernel

/-- K2. -/
theorem test_check_k2 :
    seen (exec .check (machine 0 hello { Operands.zero with len := 5#32, crc := 0xD26D#16 }))
      = some (0x052, [0, 0, 0, 0, 0, 0, 0xD26E, 0, 0, 0]) := by decide +kernel

/-- K3: the empty payload. -/
theorem test_check_k3 :
    seen (exec .check (machine 0 [] { Operands.zero with crc := 0xFFFF#16 })) = some (0x002, [0, 0, 0, 0, 0, 0, 0xFFFF, 0, 0, 0]) := by
  decide +kernel

/-- DV11: a trailer that is not hexadecimal. -/
theorem test_decode_dv11 :
    seen (exec .decode (input dv11)) = some (0x152, [1, 2, 3, 5, 21, 0, 0xD26E, 0, 7, 0]) := by decide +kernel

/-- DV3: bytes before the marker and after the frame. -/
theorem test_decode_dv3 : seen (exec .decode (input (text ['x', 'x'] ++ e1 ++ text ['y', 'y'])))
    = some (0x002, [1, 2, 3, 5, 23, 0xD26E, 0xD26E, 2, 32, 0]) := by decide +kernel

/-- X2. -/
theorem test_reservedOp0 : seen (exec .reservedOp0 (range 0 0)) = some (0x082, [0, 0, 0, 0, 0, 0, 0, 0, 0, 0]) := by decide +kernel

/-- X7: the command test comes before the operand tests, and earlier results are cleared. -/
theorem test_reservedHigh :
    seen (exec (.reservedHigh 1#29 0#3) { range 0xFFFFFFFF 0x10000 with res := ⟨1#16, 2#16, 3#8, 4#16, 5#32, 6#16, 7#16, 8#32, 9#32, 10#32⟩ })
      = some (0x082, [0, 0, 0, 0, 0, 0, 0, 0, 0, 0]) := by decide +kernel

/-- Log 10: a frame that arrives behind two buffered bytes. -/
theorem test_wireFrame_appends :
    bytesSeen 0 32 (exec (.wireFrame 1#16 2#16 3#8 hello) (input (text ['x', 'x']))) = some (text ['x', 'x'] ++ e1) := by
  decide +kernel

/-- Log 11: one byte of room is missing. -/
theorem test_wireFrame_no_room :
    exec (.wireFrame 1#16 2#16 3#8 hello) (range 0x400 0) matches .next _ ∧
      bytesSeen 0x3FF 1 (exec (.wireFrame 1#16 2#16 3#8 hello) (range 0x3E3 0)) = some [0#8] := by decide +kernel

/-! ## The register shell and the step -/

/-- PR5 and DV14: STATUS after WAIT_MARKER, WAIT_HEADER, WAIT_BODY and ERR_HEX. -/
theorem test_code_numbers :
    [e1.take 5, e1.take 15, e1.take 25, dv14].map (fun b => (seen (exec .decode (input b))).map Prod.fst)
      = [some 0x012, some 0x022, some 0x032, some 0x042] := by decide +kernel

/-- X8: the host writes and reads registers 4 and 6. -/
theorem test_operand_truncates :
    nextHas (hostAccess (.writeReg 4 0x12345#32) State.reset)
        (fun t => nextHas (hostAccess (.readReg 4) t) fun u => decide (u.replies = [.reg 4 0x2345#32])) = true ∧
      nextHas (hostAccess (.writeReg 6 0x1FF#32) State.reset)
        (fun t => nextHas (hostAccess (.readReg 6) t) fun u => decide (u.replies = [.reg 6 0xFF#32])) = true := by decide +kernel

/-- Log 27: a byte that arrives while a command runs is written, and OP_LEN keeps its value. -/
theorem test_receive_while_busy :
    nextHas (hostAccess (.receive [0x41#8]) (running 7#32 (range 0x10 2)))
      (fun t => decide (t.mem.read 0x12 = 0x41#8 ∧ t.op.len = 2#32)) = true := by decide +kernel

/-- X3: the word 0x0000000F is reserved. -/
theorem test_writeCmd_reserved : statusWord (writeReg .cmd 0xF#32 (range 0 0)) = 0x082#32 := by decide +kernel

/-- A CHECK placed as the next instruction is run by the next step. -/
theorem test_placed_check :
    seen (step ((machine 0 hello { Operands.zero with len := 5#32, crc := 0xD26E#16 }).withFetchWord 32 6))
      = some (0x002, [0, 0, 0, 0, 0, 0, 0xD26E, 0, 0, 0]) := by decide +kernel

/-- The table's wire frame row is 240 bits for a payload of 5 bytes: placed, its bytes arrive with the next step. The number is
vector E1, its first byte least significant. -/
theorem test_placed_wireFrame :
    bytesSeen 0 30 (step (State.reset.withFetchWord 240 0x653632646f6c6c65683530303033303230303031303030316e73733d3d3d))
      = some e1 := by decide +kernel

/-! ## Witnesses: for every statement with hypotheses, a state and operands that meet them, one for each clause, at the edge -/

/-- A block running the command with word `w`, its host waiting for DONE. -/
def waitingFor (w : Word) (s : State) : State := { running w s with program := [.wait] }

theorem witness_EveryRegisterReadsZeroAfterReset : Reg.ofNumber 0 = some .cmd ∧ Reg.ofNumber 18 = some .rOutlen := by decide

/-- An ENCODE running with both its ranges legal: 0x100 is an output address, 4 the last input address. -/
theorem witness_ResetClearsRegistersAndKeepsMemory :
    (running 3#32 sender).mem.wf = true ∧ encodeRunning (running 3#32 sender) = true ∧
      29 < (encodeOutput (running 3#32 sender)).length ∧ (0 ≤ 4 ∧ 4 < 0 + (running 3#32 sender).op.len.toNat) ∧
      State.reset.mem.wf = true ∧ encodeRunning State.reset = false := by decide +kernel

/-- Well-formed terms of both encodings, and one for each check that is not. -/
theorem witness_DecodeInvertsEncode :
    (Instr.reservedHigh 0x1FFFFFFF#29 7#3).wellFormed = true ∧ (Instr.wireFrame 1#16 2#16 3#8 hello).wellFormed = true ∧
      (Instr.reservedHigh 0#29 5#3).wellFormed = false := by decide +kernel

/-- A payload of 65,535 bytes. -/
theorem witness_DecodeInvertsEncode_longest (b : Byte) :
    (Instr.wireFrame 0#16 0#16 0#8 (List.replicate 65535 b)).wellFormed = true := by
  show decide ((List.replicate 65535 b).length ≤ maxPayload) = true
  rw [List.length_replicate]
  decide

theorem witness_HexFieldsRoundTrip :
    (text ['f', 'F', 'f', 'F']).length = 4 ∧ parseHex (text ['f', 'F', 'f', 'F']) = some 0xFFFF ∧ hex4 0#16 = hex4 0#16 ∧
      hex2 0#8 = hex2 0#8 := by decide +kernel

/-- F3 and F4. -/
theorem witness_ScannerFindsTheFirstMarker :
    findMarker (0x3D#8 :: marker) = some 1 ∧ findMarker (marker.take 6) = none := by decide +kernel

/-- The marker begins exactly 6 bytes before the old end. -/
theorem witness_MarkerStableUnderAppending :
    findMarker marker = some 0 ∧ findMarker (marker.take 6) = none ∧ findMarker (marker.take 6 ++ [0x31#8]) = some 0 := by
  decide +kernel

/-- F7: the second marker right after the first. -/
theorem witness_ScanningOnAfterAMarkerLosesNone :
    findMarker (marker ++ marker) = some 0 ∧ (slice (marker ++ marker) 7 14 = marker ∧ 0 < 7 ∧ 0 ≤ 0) := by decide +kernel

theorem witness_EncodedFrameLayout (b : Byte) :
    maxPayload < (⟨0#16, 0#16, 0#8, List.replicate 65536 b⟩ : Frame).payload.length ∧
      (⟨0#16, 0#16, 0#8, List.replicate 65535 b⟩ : Frame).payload.length ≤ maxPayload := by
  show maxPayload < (List.replicate 65536 b).length ∧ (List.replicate 65535 b).length ≤ maxPayload
  rw [List.length_replicate, List.length_replicate]
  decide

theorem witness_DifferentFramesEncodeDifferently : encodeFrame frame1 = some e1 ∧ encodeFrame frame1 = some e1 := by decide +kernel

theorem witness_EveryFrameRoundTrips : frame1.payload.length ≤ maxPayload := by decide +kernel

theorem witness_BackToBackFramesDecodeInOrder : encodeFrame frame1 = some e1 ∧ encodeFrame frame3 = some e3 := by decide +kernel

theorem witness_EveryDecidedOutcomeMakesProgress : (input e1).seq = .idle ∧ 30 / 7 < 5 := by decide +kernel

/-- ERR_HEX, ERR_CRC and OK. -/
theorem witness_DecidedOutcomesSurviveAppending :
    (decodeStream dv14).code = .errHex ∧ (decodeStream dv9).code = .errCrc ∧ (decodeStream e1).code = .ok := by decide +kernel

/-- DV14, DV15 and DV7 with a byte after the header changed, where there is one. -/
theorem witness_UndecidedOutcomesIgnoreBytesAfterTheHeader :
    (decodeStream (dv14.take 20) = .waitHeader 0) ∧
      ((dv14 ++ [0#8]).length = (dv14 ++ [1#8]).length ∧ (dv14 ++ [0#8]).take 21 = (dv14 ++ [1#8]).take 21 ∧
        decodeStream (dv14 ++ [0#8]) = .errHex 0) ∧
      ((e1.take 21 ++ [0#8]).length = (e1.take 21 ++ [1#8]).length ∧
        (e1.take 21 ++ [0#8]).take 21 = (e1.take 21 ++ [1#8]).take 21 ∧
        decodeStream (e1.take 21 ++ [0#8]) = .waitBody 0 ⟨1#16, 2#16, 3#8, 5#16⟩) := by decide +kernel

/-- P1 and P2: 23 bytes are enough, 22 are not. -/
theorem witness_PacketsAreSlicedByTheDeclaredLength :
    14 ≤ (e1.drop 7).length ∧ parseHex (slice (e1.drop 7) 0 4) = some 1 ∧ parseHex (slice (e1.drop 7) 4 8) = some 2 ∧
      parseHex (slice (e1.drop 7) 8 10) = some 3 ∧ parseHex (slice (e1.drop 7) 10 14) = some 5 ∧
      18 + 5 ≤ (e1.drop 7).length ∧ ((e1.drop 7).take 22).length < 18 + 5 ∧
      parseHex (slice ((e1.drop 7).take 22) 10 14) = some 5 := by decide +kernel

/-- DV1. -/
theorem witness_AcceptedFramesCarryTheirChecksum :
    decodeStream e1 = .frame 0 ⟨1#16, 2#16, 3#8, 5#16⟩ hello 0xD26E#16 30 := by decide +kernel

/-- The letter `d` of E1's trailer becomes `D`: the frame is still accepted (log 18). -/
theorem witness_EveryTrailerBitFlipIsAMismatch :
    encodeFrame frame1 = some e1 ∧ 0 < 4 ∧ 5 < 8 ∧
      decodeStream (flipBit e1 (21 + frame1.payload.length + 0) 5) = .frame 0 ⟨1#16, 2#16, 3#8, 5#16⟩ hello 0xD26E#16 30 := by
  decide +kernel

/-- DV9 (last byte, bit 0) and DV11 (first byte, bit 4). -/
theorem witness_TrailerBitFlipThatChangesTheDigitIsAMismatch :
    encodeFrame frame1 = some e1 ∧ flipBit e1 (21 + 5 + 3) 0 = dv9 ∧ flipBit e1 (21 + 5 + 0) 4 = dv11 ∧
      (dv9.drop 26).map hexval ≠ (e1.drop 26).map hexval ∧ (dv11.drop 26).map hexval ≠ (e1.drop 26).map hexval := by
  decide +kernel

/-- The two clauses of the range check meet: an empty range at MEM_SIZE passes, one byte there does not (R55). For the six
commands that store nothing. -/
theorem witness_range_clauses :
    (range 0x400 0).op.base.toNat + (range 0x400 0).op.len.toNat ≤ (range 0x400 0).memSize ∧
      (range 0x400 1).memSize < (range 0x400 1).op.base.toNat + (range 0x400 1).op.len.toNat := by decide +kernel

/-- MEM_SIZE = 35 is exactly enough for PR2's ranges at 0 and 5 (95_test_vectors 2.4). -/
theorem witness_EncodeCommandResult_ok :
    let s := { sender with memSize := 35, op := { sender.op with outBase := 5#32 } }
    s.mem.wf = true ∧ s.op.len.toNat ≤ 0xFFFF ∧ EncodeRangesOk s := by
  refine ⟨by decide +kernel, by decide +kernel, by decide +kernel, by decide +kernel, ?_⟩
  intro a
  show ¬((5 ≤ a ∧ a < 35) ∧ (0 ≤ a ∧ a < 5))
  omega

/-- OUT_BASE = 3 overlaps the payload (95_test_vectors 2.4). -/
theorem witness_EncodeCommandResult_overlap :
    let s := { sender with op := { sender.op with outBase := 3#32 } }
    s.mem.wf = true ∧ s.op.len.toNat ≤ 0xFFFF ∧ ¬EncodeRangesOk s := by
  refine ⟨by decide +kernel, by decide +kernel, ?_⟩
  rintro ⟨-, -, h⟩
  exact h 4 (by decide)

theorem witness_EncodeCommandResult_oversize :
    (range 0 0x10000).mem.wf = true ∧ 0xFFFF < (range 0 0x10000).op.len.toNat := by decide +kernel

/-- SCAN of an empty input, and of one that is just a marker (F6). -/
theorem witness_ScanCommandResult :
    (∀ m, ¬MarkerAt (inputBytes (input [])) m) ∧ FirstMarkerAt (inputBytes (input marker)) 0 ∧
      (input marker).op.base.toNat + (input marker).op.len.toNat ≤ (input marker).memSize := by
  refine ⟨?_, ⟨⟨by decide +kernel, by decide +kernel⟩, by simp⟩, by decide +kernel⟩
  rintro m ⟨h, -⟩
  have : (inputBytes (input [])).length = 0 := by decide +kernel
  omega

/-- P3, P7, P2 and P1 at the command's input. -/
theorem witness_ParseCommandResult :
    parsePacket (inputBytes (input (header1.take 13))) = .waitHeader ∧
      parsePacket (inputBytes (input (dv14.drop 7))) = .errHex ∧
      parsePacket (inputBytes (input ((e1.drop 7).take 22))) = .waitBody ⟨1#16, 2#16, 3#8, 5#16⟩ ∧
      parsePacket (inputBytes (input (e1.drop 7))) = .packet ⟨1#16, 2#16, 3#8, 5#16⟩ hello (some 0xD26E#16) 23 := by
  decide +kernel

/-- K1 and K2. -/
theorem witness_CheckCommandResult :
    ccitt16 (inputBytes (machine 0 hello { Operands.zero with len := 5#32, crc := 0xD26E#16 })) = 0xD26E#16 ∧
      ccitt16 (inputBytes (machine 0 hello { Operands.zero with len := 5#32, crc := 0xD26D#16 })) ≠ 0xD26D#16 := by
  decide +kernel

/-- DV4, DV6, DV14, DV7, DV9 and DV1 at the command's input. -/
theorem witness_DecodeCommandResult :
    decodeStream (inputBytes (input [])) = .waitMarker ∧ decodeStream (inputBytes (input (e1.take 20))) = .waitHeader 0 ∧
      decodeStream (inputBytes (input dv14)) = .errHex 0 ∧
      decodeStream (inputBytes (input (e1.take 21))) = .waitBody 0 ⟨1#16, 2#16, 3#8, 5#16⟩ ∧
      decodeStream (inputBytes (input dv9)) = .errCrc 0 ⟨1#16, 2#16, 3#8, 5#16⟩ (some 0xD26D#16) 0xD26E#16 ∧
      decodeStream (inputBytes (input e1)) = .frame 0 ⟨1#16, 2#16, 3#8, 5#16⟩ hello 0xD26E#16 30 := by decide +kernel

theorem witness_ReservedWordsFinishWithErrCmd :
    (range 0 0).seq = .idle ∧ reservedWord 0#32 = true ∧ reservedWord 8#32 = true ∧
      (Instr.reservedOp0 = .reservedOp0 ∨ ∃ high op, Instr.reservedOp0 = .reservedHigh high op) ∧
      (Instr.reservedHigh 1#29 0#3 = .reservedOp0 ∨ ∃ high op, Instr.reservedHigh 1#29 0#3 = .reservedHigh high op) :=
  ⟨by decide, by decide, by decide, .inl rfl, .inr ⟨_, _, rfl⟩⟩

/-- The frame of 30 bytes ends exactly at MEM_SIZE, at an idle block and while a DECODE runs. -/
theorem witness_ArrivingFrameExtendsTheDecodeBuffer :
    (range 0x3E0 2).mem.wf = true ∧ (range 0x3E0 2).seq = .idle ∧ hello.length ≤ maxPayload ∧
      (range 0x3E0 2).op.base.toNat + (range 0x3E0 2).op.len.toNat + 25 + hello.length ≤ (range 0x3E0 2).memSize ∧
      (range 0x3E0 2).op.len.toNat + 25 + hello.length < 2 ^ 32 ∧
      (running 7#32 (range 0x3E0 2)).seq = .busy (Working.init 7#32) ∧ (running 7#32 (range 0x3E0 2)).mem.wf = true ∧
      (∀ x, ¬InRunningOutput (Working.init 7#32) (running 7#32 (range 0x3E0 2)) x) :=
  ⟨by decide +kernel, by decide +kernel, by decide +kernel, by decide +kernel, by decide +kernel, by decide +kernel,
    by decide +kernel, fun _ h => absurd h.1 (by decide +kernel)⟩

/-- PR2's ENCODE with OUT_BASE = 0x22: a frame of 30 bytes after the payload ends with the last byte of its output range's first
address; with OUT_BASE = 0x23 it ends before it. -/
theorem witness_ArrivingFrameExtendsTheDecodeBuffer_encode :
    let s := running 3#32 { sender with op := { sender.op with outBase := 0x22#32 } }
    let u := running 3#32 { sender with op := { sender.op with outBase := 0x23#32 } }
    ((5 ≤ 0x22 ∧ 0x22 < 0 + 5 + 25 + hello.length) ∧ InRunningOutput (Working.init 3#32) s 0x22) ∧
      (∀ x, 5 ≤ x → x < 0 + 5 + 25 + hello.length → ¬InRunningOutput (Working.init 3#32) u x) := by
  refine ⟨⟨by decide +kernel, by decide +kernel, by decide +kernel, by decide +kernel⟩, ?_⟩
  rintro x - h ⟨-, h', -⟩
  have h1 : x < 35 := h
  have h2 : 35 ≤ x := h'
  omega

/-- One byte less of room; a buffer length that OP_LEN cannot name; a payload that no frame has. -/
theorem witness_ArrivingFrameWithoutRoomChangesNothing :
    (range 0x3E0 3).memSize < (range 0x3E0 3).op.base.toNat + (range 0x3E0 3).op.len.toNat + 25 + hello.length ∧
      2 ^ 32 ≤ (range 0 0xFFFFFFE2).op.len.toNat + 25 + hello.length ∧ hello.length ≤ maxPayload := by decide +kernel

theorem witness_ArrivingFrameWithoutRoomChangesNothing_oversize (b : Byte) : maxPayload < (List.replicate 65536 b).length := by
  rw [List.length_replicate]
  decide

theorem witness_NonStoringCommandsKeepMemoryAndOperands :
    Instr.decode ≠ .encode ∧ (∀ d sr ty p, Instr.decode ≠ .wireFrame d sr ty p) ∧
      nextHas (exec .decode (input e1)) (fun t => decide (t.code = .ok)) = true :=
  ⟨by decide, by simp, by decide +kernel⟩

/-- An ENCODE that is OK, and one that is not. -/
theorem witness_EncodeWritesOnlyItsOutputRange :
    (seen (exec .encode sender)).isSome = true ∧
      nextHas (exec .encode (range 0 0x10000)) (fun t => decide (t.code ≠ .ok)) = true := by decide +kernel

/-- Every instruction answers a next state here. -/
theorem witness_OnlyListedCodesArise :
    [Instr.crcCcitt, .crcModbus, .encode, .scan, .parse, .check, .decode, .reservedOp0, .reservedHigh 1#29 0#3,
      .wireFrame 1#16 2#16 3#8 hello].all (fun i => (seen (exec i sender)).isSome) = true := by decide +kernel

/-- ERR_OPERAND, and then each decision of the chain both ways: DV4, DV6 at 20 bytes, DV14, DV8 at 29 bytes, DV9, DV1. -/
theorem witness_DecodeReportsTheFirstCause :
    (seen (exec .decode (range 0x400 1))).isSome = true ∧ (∀ m, ¬MarkerAt (inputBytes (input [])) m) ∧
      FirstMarkerAt (inputBytes (input (e1.take 20))) 0 ∧ (inputBytes (input (e1.take 20))).length < 0 + 21 ∧
      FirstMarkerAt (inputBytes (input dv14)) 0 ∧ (∃ c ∈ slice (inputBytes (input dv14)) (0 + 7) (0 + 21), hexval c = none) ∧
      parseHex (slice (inputBytes (input (e1.take 29))) 17 21) = some 5 ∧
      (inputBytes (input (e1.take 29))).length < 0 + 25 + 5 ∧
      parseHex (slice (inputBytes (input dv9)) 26 30) ≠ some (ccitt16 (slice (inputBytes (input dv9)) 21 26)).toNat ∧
      parseHex (slice (inputBytes (input e1)) 26 30) = some (ccitt16 (slice (inputBytes (input e1)) 21 26)).toNat := by
  refine ⟨by decide +kernel, witness_ScanCommandResult.1, ⟨⟨by decide +kernel, by decide +kernel⟩, by simp⟩, by decide +kernel,
    ⟨⟨by decide +kernel, by decide +kernel⟩, by simp⟩, by decide +kernel, by decide +kernel, by decide +kernel, by decide +kernel,
    by decide +kernel⟩

/-- X2; X6; X4. -/
theorem witness_ShellChecksComeInOrder :
    (range 0 0).seq = .idle ∧ reservedWord 0#32 = true ∧ 0xFFFF < (range 0xFFFFFFFF 0x10000).op.len.toNat ∧
      isCommand .crcCcitt = true ∧ Instr.crcCcitt ≠ .encode ∧ (range 0x3FF 2).op.len.toNat ≤ 0xFFFF ∧
      (range 0x3FF 2).memSize < (range 0x3FF 2).op.base.toNat + (range 0x3FF 2).op.len.toNat := by decide +kernel

/-- Two states that differ in an old result and in a byte after the input. -/
theorem witness_ResultsDependOnOperandsAndInputOnly :
    let s := machine 0 hello { Operands.zero with len := 4#32 }
    let u := { machine 0 (hello.take 4) { Operands.zero with len := 4#32 } with done := true, res := ⟨1#16, 2#16, 3#8, 4#16, 5#32, 6#16, 7#16, 8#32, 9#32, 10#32⟩ }
    isCommand .decode = true ∧ s.op = u.op ∧ s.memSize = u.memSize ∧ inputBytes s = inputBytes u ∧ s ≠ u := by decide +kernel

theorem witness_DeliveredFrameIsTheDecodedOne :
    (input e1).op.base.toNat + (input e1).op.len.toNat ≤ (input e1).memSize ∧
      decodeStream (inputBytes (input e1)) = .frame 0 ⟨1#16, 2#16, 3#8, 5#16⟩ hello 0xD26E#16 30 ∧
      (seen (exec .decode (input e1))).isSome = true := by decide +kernel

/-- PR6. -/
theorem witness_DecodeEqualsTheUnitSequence :
    let s := input (text ['x', 'x'] ++ e1 ++ text ['y', 'y'])
    s.seq = .idle ∧ s.memSize ≤ 2 ^ 32 ∧ 0 + 34 ≤ s.memSize ∧ 34 < 2 ^ 32 ∧
      unitSequence 0 34 s = ⟨.ok, 2, ⟨1#16, 2#16, 3#8, 5#16⟩, 23, 0xD26E#16, false, 0xD26E#16, 32⟩ := by decide +kernel

theorem inv_sender : Inv sender :=
  ⟨by decide +kernel, by decide +kernel, by decide +kernel, by decide +kernel, fun _ => ⟨rfl, rfl, rfl⟩, fun _ => rfl,
    fun _ h => (nomatch h), fun h => (nomatch h), fun _ => rfl, fun _ => rfl⟩

/-- PR2. -/
theorem witness_EncodeThenDecodeDeliversTheFrame :
    Inv sender ∧
      nextHas (exec .encode sender) (fun t => decide (t.code = .ok)) = true := ⟨inv_sender, by decide +kernel⟩

/-- PR3's buffer, up to the end of memory. -/
theorem witness_DrainDeliversEveryFrameInOrder :
    let s := machine 0x3C3 (e1 ++ e3) Operands.zero
    s.seq = .idle ∧ s.memSize ≤ 2 ^ 32 ∧ (∀ f ∈ [frame1, frame3], f.payload.length ≤ maxPayload) ∧
      ([frame1, frame3].flatMap frameBytes).length < 2 ^ 32 ∧ 0x3C3 + ([frame1, frame3].flatMap frameBytes).length ≤ s.memSize ∧
      s.mem.readBytes 0x3C3 ([frame1, frame3].flatMap frameBytes).length = [frame1, frame3].flatMap frameBytes ∧
      [frame1, frame3].length < 3 := by decide +kernel

/-- DV9's event (PR4), the least and the greatest code that is reported, codes and commands that are not, and a WAIT_MARKER and
an ERR_HEX of DECODE, a WAIT_HEADER and an ERR_HEX of PARSE. -/
theorem witness_MismatchEmitsTheDiagnosticEvent :
    decodeStream (inputBytes (input dv9)) = .errCrc 0 ⟨1#16, 2#16, 3#8, 5#16⟩ (some 0xD26D#16) 0xD26E#16 ∧
      (input dv9).op.base.toNat + (input dv9).op.len.toNat ≤ (input dv9).memSize ∧
      (diagnosticEvent .decode { input [] with code := .waitMarker }).isSome = true ∧
      (diagnosticEvent .check { input [] with code := .errCrc }).isSome = true ∧
      diagnosticEvent .decode (input []) = none ∧ diagnosticEvent .decode { input [] with code := .errOversize } = none ∧
      diagnosticEvent .scan { input [] with code := .waitMarker } = none ∧
      nextHas (exec .decode (input [])) (fun t => decide (t.code = .waitMarker)) = true ∧
      nextHas (exec .decode (input dv14)) (fun t => decide (t.code = .errHex)) = true ∧
      nextHas (exec .parse (input (header1.take 13))) (fun t => decide (t.code = .waitHeader)) = true ∧
      nextHas (exec .parse (input (dv14.drop 7))) (fun t => decide (t.code = .errHex)) = true := by decide +kernel

theorem witness_CmdWriteStartsACommandOnlyWhenIdle :
    busy (running 7#32 (input e1)) = true ∧ busy (input e1) = false ∧ reservedWord 8#32 = true ∧ reservedWord 7#32 = false := by
  decide +kernel

/-- The first and the last operand register. -/
theorem witness_OperandWritesTruncateAndWaitForIdle :
    busy (running 7#32 (input e1)) = true ∧ busy (input e1) = false ∧ (2 ≤ 2 ∧ 2 ≤ 8) ∧ (2 ≤ 8 ∧ 8 ≤ 8) ∧
      (seen (exec .decode (input e1))).isSome = true := by decide +kernel

theorem witness_StatusAndResultsIgnoreWrites :
    (1 = 1 ∨ (9 ≤ 1 ∧ 1 ≤ 18)) ∧ (9 = 1 ∨ (9 ≤ 9 ∧ 9 ≤ 18)) ∧ (18 = 1 ∨ (9 ≤ 18 ∧ 18 ≤ 18)) ∧ 18 < 19 := by decide

/-- The first and the last register, the last whose value is fixed while BUSY, and the first number that is none. -/
theorem witness_HostReadsReturnTheRegister :
    (registerValues (input e1))[0]? = some 0#32 ∧ (registerValues (input e1))[18]? = some 0#32 ∧
      (registerValues (input e1))[8]? = some 0#32 ∧ busy (input e1) = false ∧ busy (running 7#32 (input e1)) = true ∧ 8 < 9 ∧
      (registerValues (input e1))[19]? = none ∧ 18 < 19 := by decide +kernel

/-- Five bytes that end at MEM_SIZE, and five that do not. -/
theorem witness_HostStoreThenLoadReturnsTheBytes :
    (range 0 0).mem.wf = true ∧ (range 0 0).seq = .idle ∧ 0x3FB + hello.length ≤ (range 0 0).memSize ∧
      (range 0 0).memSize < 0x3FC + hello.length := by decide +kernel

/-- ENCODE is running with its input at 0 to 4 and its output at 0x100 to 0x11D: the last input byte and the last output byte are
in use, the bytes after them are not; the last input byte may be read; a DECODE uses no output range. -/
theorem witness_HostExclusionWhileBusy :
    let s := running 3#32 sender
    s.seq = .busy (Working.init 3#32) ∧ 0x11E + 1 ≤ s.memSize ∧ s.mem.wf = true ∧ InInput s 4 ∧
      InRunningOutput (Working.init 3#32) s 0x11D ∧ (¬InInput s 5 ∧ ¬InRunningOutput (Working.init 3#32) s 5) ∧
      (¬InInput s 0x11E ∧ ¬InRunningOutput (Working.init 3#32) s 0x11E) ∧ ¬InRunningOutput (Working.init 3#32) s 4 ∧
      (¬InInput s 0x100 ∧ ¬InRunningOutput (Working.init 7#32) (running 7#32 sender) 0x100) := by
  unfold InInput InRunningOutput
  decide +kernel

/-- Five bytes that end at MEM_SIZE, at an idle block and while a DECODE runs. -/
theorem witness_ReceivedBytesFollowTheOldInput :
    (range 0x3FA 1).mem.wf = true ∧ (range 0x3FA 1).seq = .idle ∧
      (range 0x3FA 1).op.base.toNat + (range 0x3FA 1).op.len.toNat + hello.length ≤ (range 0x3FA 1).memSize ∧
      (range 0x3FA 1).op.len.toNat + hello.length < 2 ^ 32 ∧
      (running 7#32 (range 0x3FA 1)).seq = .busy (Working.init 7#32) ∧ (running 7#32 (range 0x3FA 1)).mem.wf = true ∧
      (∀ x, ¬InRunningOutput (Working.init 7#32) (running 7#32 (range 0x3FA 1)) x) :=
  ⟨by decide +kernel, by decide +kernel, by decide +kernel, by decide +kernel, by decide +kernel, by decide +kernel,
    fun _ h => absurd h.1 (by decide +kernel)⟩

/-- PR2's ENCODE with OUT_BASE = 9: five bytes after the payload reach it; with OUT_BASE = 10 they end before it. -/
theorem witness_ReceivedBytesFollowTheOldInput_encode :
    let s := running 3#32 { sender with op := { sender.op with outBase := 9#32 } }
    let u := running 3#32 { sender with op := { sender.op with outBase := 10#32 } }
    ((5 ≤ 9 ∧ 9 < 0 + 5 + hello.length) ∧ InRunningOutput (Working.init 3#32) s 9) ∧
      (∀ x, 5 ≤ x → x < 0 + 5 + hello.length → ¬InRunningOutput (Working.init 3#32) u x) := by
  refine ⟨⟨by decide +kernel, by decide +kernel, by decide +kernel, by decide +kernel⟩, ?_⟩
  rintro x - h ⟨-, h', -⟩
  have h1 : x < 10 := h
  have h2 : 10 ≤ x := h'
  omega

/-- A running command with a waiting host and with a host that reads; an idle block with each kind of host. -/
theorem witness_StepRunsTheDecodedInstruction :
    (waitingFor 7#32 (input e1)).seq = .busy (Working.init 7#32) ∧
      Sys2Proof.decode (.command (Working.init 7#32).command) = .instr .decode ∧
      (waitingFor 7#32 (input e1)).program.head? = some .wait ∧ (running 7#32 (input e1)).program = [] ∧
      { running 7#32 (input e1) with program := [.readReg 1] }.program = .readReg 1 :: [] ∧ HostAccess.readReg 1 ≠ .wait ∧
      (input e1).seq = .idle ∧ (input e1).program = [] ∧ (input e1).done = false ∧
      { input e1 with program := [.receive e1] }.program = .receive e1 :: [] ∧ encodeFrame ⟨1#16, 2#16, 3#8, hello⟩ = some e1 := by
  decide +kernel

theorem witness_PlacedWordRunsNext : (32 : Nat) ≤ 32 := by decide

theorem witness_StartedCommandFinishes :
    (waitingFor 3#32 sender).seq = .busy (Working.init 3#32) ∧ (waitingFor 3#32 sender).program.head? = some .wait ∧
      (running 3#32 sender).program = [] := by decide +kernel

/-- The invariant holds of PR2's start, from which a step answers a next state. -/
theorem witness_EveryStepKeepsTheInvariant :
    Inv { sender with program := [.writeReg 0 3#32] } ∧ (seen (step { sender with program := [.writeReg 0 3#32] })).isSome = true :=
  ⟨⟨inv_sender.1, inv_sender.2, inv_sender.3, inv_sender.4, inv_sender.5, inv_sender.6, inv_sender.7, inv_sender.8, inv_sender.9,
    inv_sender.10⟩, by decide +kernel⟩

/-- A host write of OP_LEN changes an operand. -/
theorem witness_OnlyTheHostChangesOperands :
    nextHas (step { range 0 0 with program := [.writeReg 3 5#32] }) (fun t => decide (t.op ≠ (range 0 0).op)) = true ∧
      fetch { range 0 0 with program := [.writeReg 3 5#32] } = .host (.writeReg 3 5#32) (range 0 0) := by decide +kernel

end Sys2Proof.Tests
end

section
/-! The machine's invariant: it holds after reset, and every step keeps it. -/

namespace Sys2Proof.Machine

/-- `Inv` says nothing of the operand registers, of the host's own side or of the free counter. -/
theorem Inv.withHostSide {s : State} (h : Inv s) (op : Operands) (program : List HostAccess) (replies : List Reply)
    (freeIdx : Nat) : Inv { s with op := op, program := program, replies := replies, freeIdx := freeIdx } :=
  ⟨h.memSize_pos, h.memSize_le, h.mem_wf, h.mem_inside, h.cleared, h.busy_not_done, h.busy_command, h.declbad_codes,
    h.nothing_recorded, h.wait_consumes_nothing⟩

/-- Of memory, `Inv` asks the canonical form and that no address beyond MEM_SIZE is listed. -/
theorem Inv.withMem {s : State} (h : Inv s) {m : Memory} (hwf : m.wf = true) (hin : ∀ c ∈ m, c.1 < s.memSize) :
    Inv (setMem m s) :=
  ⟨h.memSize_pos, h.memSize_le, hwf, hin, h.cleared, h.busy_not_done, h.busy_command, h.declbad_codes,
    h.nothing_recorded, h.wait_consumes_nothing⟩

/-- Bytes stored inside MEM_SIZE keep `Inv`. -/
theorem Inv.writeBytes {s : State} (h : Inv s) {a : Nat} {bytes : List Byte} (hfit : a + bytes.length ≤ s.memSize) :
    Inv (setMem (s.mem.writeBytes a bytes) s) := by
  refine h.withMem (Memory.wf_writeBytes h.mem_wf) fun c hc => ?_
  rcases Memory.mem_writeBytes hc with hold | ⟨-, hlt⟩
  · exact h.mem_inside c hold
  · omega

/-- Every address ENCODE writes exists (20_memory R55). -/
theorem encodeOutput_inside (s : State) : encodeOutput s = [] ∨ s.op.outBase.toNat + (encodeOutput s).length ≤ s.memSize := by
  rcases encodeCode_cases s with ⟨hc, -⟩ | ⟨hc, -, -⟩ | ⟨-, -, -, hout, -⟩
  · exact .inl (encodeOutput_not_ok (by simp [hc]))
  · exact .inl (encodeOutput_not_ok (by simp [hc]))
  · have hlen := length_encodeOutput_le s
    unfold outputLength at hlen
    exact .inr (by omega)

/-- A command that finishes as `exec_finishes` allows leaves a state with `Inv` (10_state R40, 60_exceptions R221). -/
theorem Inv.finished {s : State} {c : Code} {b : Bool} {r : Results} {m : Memory} (hmem : Inv (setMem m s))
    (hdeclbad : b = true → (c = .ok ∨ c = .errCrc) ∧ r.crcDecl = 0#16)
    (hnothing : c = .waitMarker ∨ c = .errOversize ∨ c = .errOperand ∨ c = .errCmd → r = Results.zero)
    (hwait : c = .waitHeader ∨ c = .waitBody → r.next = 0#32) :
    Inv (finish c (setRes r (setDeclbad b (setMem m (beginCommand s))))) where
  memSize_pos := hmem.memSize_pos
  memSize_le := hmem.memSize_le
  mem_wf := hmem.mem_wf
  mem_inside := hmem.mem_inside
  cleared := by simp
  busy_not_done := by simp
  busy_command := by simp
  declbad_codes := hdeclbad
  nothing_recorded := hnothing
  wait_consumes_nothing := hwait

/-- A command or a reserved word keeps `Inv`. -/
theorem exec_keeps_inv {i : Instr} {s t : State} (hi : ∀ d sr ty p, i ≠ .wireFrame d sr ty p) (h : Inv s)
    (hx : exec i s = .next t) : Inv t := by
  obtain ⟨c, b, r, m, rfl, hm, hdeclbad, hnothing, hwait⟩ := exec_finishes hi hx
  refine Inv.finished ?_ hdeclbad hnothing hwait
  rcases hm with rfl | ⟨-, -, rfl⟩
  · exact h
  · rcases encodeOutput_inside s with hnil | hfit
    · rw [hnil]
      exact h
    · exact h.writeBytes hfit

/-- Starting a command that is no reserved word keeps `Inv` (10_state R41). -/
theorem Inv.started {s : State} (h : Inv s) {w : Word} (hw : reservedWord w = false) : Inv (startCommand w s) where
  memSize_pos := h.memSize_pos
  memSize_le := h.memSize_le
  mem_wf := h.mem_wf
  mem_inside := h.mem_inside
  cleared := by simp
  busy_not_done := by simp
  busy_command := by rintro _ ⟨⟩; exact hw
  declbad_codes := by simp
  nothing_recorded := by simp
  wait_consumes_nothing := by simp

/-- A host write to CMD keeps `Inv`. -/
theorem Inv.writeCmd {s : State} (h : Inv s) (w : Word) : Inv (writeCmd w s) := by
  unfold Machine.writeCmd
  split
  · exact h
  · split
    · exact Inv.finished (s := s) (c := .errCmd) (b := false) (r := Results.zero) (m := s.mem) h (by simp) (by simp) (by simp)
    · next hw => exact h.started (by simpa using hw)

/-- A host write to any register keeps `Inv`. -/
theorem Inv.writeReg {s : State} (h : Inv s) (r : Reg) (v : Word) : Inv (writeReg r v s) := by
  by_cases hr : r = .cmd
  · subst hr
    exact h.writeCmd v
  · rw [writeReg_not_cmd hr]
    split
    · exact h
    · exact h.withHostSide _ _ _ _

/-- A host read of any register keeps `Inv`, whatever it is answered. -/
theorem Inv.readReg {s : State} (h : Inv s) (r : Reg) (reply : Reply) : Inv (addReply reply (readReg r s).2) := by
  unfold Machine.readReg
  split <;> exact h.withHostSide _ _ _ _

/-- What a reset leaves of a running ENCODE lies in its output range (70_reset R262). -/
theorem Inv.abandonCommand {s : State} (h : Inv s) : Inv (abandonCommand s) := by
  unfold Machine.abandonCommand
  split
  · have hmem : Inv (setMem (Memory.writeSome (Config.resetKept s.freeIdx) 0 s.mem s.op.outBase.toNat (encodeOutput s)) s) := by
      refine h.withMem (Memory.wf_writeSome h.mem_wf) fun c hc => ?_
      rcases Memory.mem_writeSome hc with hold | ⟨hlo, hlt⟩
      · exact h.mem_inside c hold
      · rcases encodeOutput_inside s with hnil | hfit
        · simp only [hnil, List.length_nil] at hlt
          omega
        · omega
    exact hmem.withHostSide _ _ _ _
  · exact h

/-- A reset keeps `Inv`, whatever it cuts off. -/
theorem Inv.resetBlock {s : State} (h : Inv s) : Inv (resetBlock s) where
  memSize_pos := h.abandonCommand.memSize_pos
  memSize_le := h.abandonCommand.memSize_le
  mem_wf := h.abandonCommand.mem_wf
  mem_inside := h.abandonCommand.mem_inside
  cleared := by simp
  busy_not_done := by simp
  busy_command := by simp
  declbad_codes := by simp
  nothing_recorded := by simp
  wait_consumes_nothing := by simp

/-- Received bytes keep `Inv`. -/
theorem Inv.receive {s t : State} (h : Inv s) {bytes : List Byte} (hx : receive bytes s = .next t) : Inv t := by
  rcases receive_next hx with rfl | ⟨hfit, rfl⟩
  · exact h
  · exact (h.writeBytes hfit).writeReg _ _

/-- Every access of the host keeps `Inv`. -/
theorem hostAccess_keeps_inv {a : HostAccess} {s t : State} (h : Inv s) (hx : hostAccess a s = .next t) : Inv t := by
  cases a with
  | writeReg n v =>
    simp only [hostAccess] at hx
    split at hx <;> cases hx
    exact h.writeReg _ v
  | readReg n =>
    simp only [hostAccess] at hx
    split at hx <;> cases hx
    exact h.readReg _ _
  | writeMem a bytes =>
    obtain ⟨hfit, rfl⟩ := hostStore_next hx
    exact h.writeBytes hfit
  | readMem a n =>
    obtain ⟨-, rfl⟩ := hostLoad_next hx
    exact h.withHostSide _ _ _ _
  | wait =>
    cases hx
    exact h
  | receive bytes => exact h.receive hx
  | reset =>
    cases hx
    exact h.resetBlock

/-- Settles O59: who moves next is decided by `step_cases`; the state it moves in differs from the old one at most in the host's
program and the free counter. -/
theorem everyStepKeepsTheInvariant : Obligations.EveryStepKeepsTheInvariant := by
  unfold Obligations.EveryStepKeepsTheInvariant
  intro s t h hstep
  rcases step_cases s with ⟨i, u, hf, hs⟩ | ⟨a, u, hf, hs⟩ | ⟨-, hs⟩ <;> rw [hs] at hstep
  · obtain ⟨w, -, rfl, hu⟩ := fetch_command hf
    have hinv : Inv u := by
      rcases hu with rfl | rfl
      · exact h
      · exact h.withHostSide _ _ _ _
    exact exec_keeps_inv (decodeCommand_ne_wireFrame w.command) hinv hstep
  · obtain ⟨rest, -, hu⟩ := fetch_host hf
    have hinv : Inv u := by rcases hu with rfl | rfl <;> exact h.withHostSide _ _ _ _
    exact hostAccess_keeps_inv hinv hstep
  · cases hstep
    exact h

/-- Settles O58: memory is empty, every register is 0 and MEM_SIZE is 2^32. -/
theorem invariantHoldsAtReset : Obligations.InvariantHoldsAtReset where
  memSize_pos := by decide
  memSize_le := Nat.le_refl _
  mem_wf := reset_mem_wf
  mem_inside := by simp [State.reset]
  cleared := fun _ => ⟨rfl, rfl, rfl⟩
  busy_not_done := by simp [busy, State.reset]
  busy_command := by simp [State.reset]
  declbad_codes := by simp [State.reset]
  nothing_recorded := fun _ => rfl
  wait_consumes_nothing := fun _ => rfl

end Sys2Proof.Machine
end

section
/-! What a command reports: the codes it can finish with, what its results depend on, and the frame an OK DECODE delivers. -/

namespace Sys2Proof.Machine

/-- A command fails the range check, or does its work on the input bytes (20_memory R55). -/
theorem withInput_cases (s : State) (work : State → List Byte → State) :
    withInput s work = finish .errOperand s ∨ withInput s work = work s (inputBytes s) := by
  unfold withInput
  split
  · exact .inr rfl
  · exact .inl rfl

/-- A command behind the range check finishes with ERR_OPERAND or with the code of its work. -/
theorem withInput_next_code {s t : State} {work : State → List Byte → State}
    (h : Host.Outcome.next (φ := Fault) (ρ := Refusal) (withInput s work) = .next t) :
    t.code = .errOperand ∨ t.code = (work s (inputBytes s)).code := by
  injection h with h
  rw [← h]
  exact (withInput_cases s work).imp (fun hw => by rw [hw]; rfl) (fun hw => by rw [hw])

@[simp] theorem setDeclared_code (decl : Option Half) (s : State) : (setDeclared decl s).code = s.code := by
  cases decl <;> rfl

/-- A register write that is not to CMD leaves CODE alone. -/
theorem writeReg_code {r : Reg} (hr : r ≠ .cmd) (v : Word) (s : State) : (writeReg r v s).code = s.code := by
  rw [writeReg_not_cmd hr]
  split <;> rfl

/-- An arriving frame makes the block execute nothing (20_memory R62), so CODE stays. -/
theorem execWireFrame_code {dest src : Half} {typ : Byte} {payload : List Byte} {s t : State}
    (h : execWireFrame dest src typ payload s = .next t) : t.code = s.code := by
  unfold execWireFrame at h
  split at h
  · rcases receive_next h with rfl | ⟨-, rfl⟩
    · rfl
    · simp [writeReg_code]
  · cases h

/-- Settles O37: each command finishes with ERR_OPERAND or with a code its own work gives. -/
theorem onlyListedCodesArise : Obligations.OnlyListedCodesArise := by
  unfold Obligations.OnlyListedCodesArise
  intro i s t h
  cases i with
  | crcCcitt => exact (withInput_next_code h).symm
  | crcModbus => exact (withInput_next_code h).symm
  | encode =>
    rcases execEncode_cases s with ⟨-, he⟩ | ⟨-, he⟩ <;> cases he.symm.trans h
    · rcases encodeCode_cases s with ⟨hcode, -⟩ | ⟨hcode, -⟩ | ⟨hcode, -⟩ <;> simp [hcode]
    · simp
  | scan =>
    rcases withInput_next_code h with hc | hc
    · simp [hc]
    · dsimp only at hc
      split at hc <;> simp [hc]
  | parse =>
    rcases withInput_next_code h with hc | hc
    · simp [hc]
    · dsimp only at hc
      split at hc <;> simp [hc]
  | check =>
    rcases withInput_next_code h with hc | hc
    · simp [hc]
    · rw [finish_code] at hc
      split at hc <;> simp [hc]
  | decode =>
    rcases withInput_next_code h with hc | hc
    · simp [hc]
    · dsimp only at hc
      cases ho : decodeStream (inputBytes (beginCommand s)) <;> rw [ho] at hc <;> simp [hc, StreamResult.code]
  | reservedOp0 =>
    cases h
    rfl
  | reservedHigh high op =>
    cases h
    rfl
  | wireFrame dest src typ payload => exact execWireFrame_code h

/-- Two states report the same outcome of a command: results, CODE, DECLBAD, DONE and the sequencer. -/
def SameReport (t v : State) : Prop :=
  t.res = v.res ∧ t.code = v.code ∧ t.declbad = v.declbad ∧ t.done = v.done ∧ t.seq = v.seq

/-- `finish` sets the code, DONE and the sequencer, and so makes two states with equal results and DECLBAD report the same. -/
theorem sameReport_finish {t v : State} (c : Code) (hres : t.res = v.res) (hdeclbad : t.declbad = v.declbad) :
    SameReport (finish c t) (finish c v) :=
  ⟨hres, rfl, hdeclbad, rfl, rfl⟩

/-- Equal inputs and operands, and work that reports the same on the same bytes, give the same report (20_memory R55). -/
theorem sameReport_withInput {s u : State} {work : State → List Byte → State} (hop : s.op = u.op)
    (hsize : s.memSize = u.memSize) (hin : inputBytes s = inputBytes u)
    (hwork : ∀ bytes, SameReport (work (beginCommand s) bytes) (work (beginCommand u) bytes)) :
    SameReport (withInput (beginCommand s) work) (withInput (beginCommand u) work) := by
  by_cases hfit : s.op.base.toNat + s.op.len.toNat ≤ s.memSize
  · rw [withInput_fits (by simpa using hfit), withInput_fits (by simpa [← hop, ← hsize] using hfit)]
    simpa [hin] using hwork (inputBytes u)
  · rw [withInput_fails (by simpa using hfit), withInput_fails (by simpa [← hop, ← hsize] using hfit)]
    exact sameReport_finish _ rfl rfl

/-- The declared checksum is recorded alike in states that agree on results and DECLBAD. -/
theorem sameReport_finish_setDeclared {t v : State} (c : Code) (decl : Option Half) (hres : t.res = v.res)
    (hdeclbad : t.declbad = v.declbad) : SameReport (finish c (setDeclared decl t)) (finish c (setDeclared decl v)) := by
  cases decl with
  | none => exact sameReport_finish c hres rfl
  | some w => exact sameReport_finish c (by simp [setDeclared, hres]) hdeclbad

/-- ENCODE's checks see the operands and MEM_SIZE alone. -/
theorem encodeCode_congr {s u : State} (hop : s.op = u.op) (hsize : s.memSize = u.memSize) : encodeCode s = encodeCode u := by
  cases s
  cases u
  cases hop
  cases hsize
  rfl

/-- Settles O40: command by command, the work on the input bytes writes into cleared registers values of those bytes and of the
operands. -/
theorem resultsDependOnOperandsAndInputOnly : Obligations.ResultsDependOnOperandsAndInputOnly := by
  unfold Obligations.ResultsDependOnOperandsAndInputOnly
  intro i s u hi hop hsize hin
  cases i with
  | crcCcitt => exact ⟨_, _, rfl, rfl, sameReport_withInput hop hsize hin fun bytes => sameReport_finish _ rfl rfl⟩
  | crcModbus => exact ⟨_, _, rfl, rfl, sameReport_withInput hop hsize hin fun bytes => sameReport_finish _ rfl rfl⟩
  | encode =>
    have hcode := encodeCode_congr hop hsize
    rcases execEncode_cases s with ⟨hs, hxs⟩ | ⟨hs, hxs⟩ <;> rcases execEncode_cases u with ⟨hu, hxu⟩ | ⟨hu, hxu⟩
    · exact ⟨_, _, hxs, hxu, hcode ▸ sameReport_finish _ rfl rfl⟩
    · exact absurd (hcode.trans hu) hs
    · exact absurd (hcode.symm.trans hs) hu
    · exact ⟨_, _, hxs, hxu, sameReport_finish _ (by simp [hin, outputLength, hop]) rfl⟩
  | scan =>
    refine ⟨_, _, rfl, rfl, sameReport_withInput hop hsize hin fun bytes => ?_⟩
    cases findMarker bytes <;> exact sameReport_finish _ rfl rfl
  | parse =>
    refine ⟨_, _, rfl, rfl, sameReport_withInput hop hsize hin fun bytes => ?_⟩
    cases parsePacket bytes with
    | packet h payload decl next => exact sameReport_finish_setDeclared _ decl rfl rfl
    | _ => exact sameReport_finish _ rfl rfl
  | check =>
    refine ⟨_, _, rfl, rfl, sameReport_withInput hop hsize hin fun bytes => ?_⟩
    simp only [beginCommand_op, hop]
    exact sameReport_finish _ rfl rfl
  | decode =>
    refine ⟨_, _, rfl, rfl, sameReport_withInput hop hsize hin fun bytes => ?_⟩
    cases decodeStream bytes with
    | errCrc m h decl computed => exact sameReport_finish_setDeclared _ decl rfl rfl
    | _ => exact sameReport_finish _ rfl rfl
  | reservedOp0 => cases hi
  | reservedHigh high op => cases hi
  | wireFrame dest src typ payload => cases hi

/-- A slice of a memory range is the memory range of the slice. -/
theorem slice_readBytes (m : Memory) {a n i j : Nat} (hij : i ≤ j) (hj : j ≤ n) :
    slice (m.readBytes a n) i j = m.readBytes (a + i) (j - i) := by
  obtain ⟨k, rfl⟩ := Nat.exists_eq_add_of_le hij
  obtain ⟨l, rfl⟩ := Nat.exists_eq_add_of_le hj
  rw [slice, Nat.add_assoc i k l, Memory.readBytes_add, List.drop_left' (Memory.length_readBytes ..), Memory.readBytes_add,
    Nat.add_sub_cancel_left, List.take_left' (Memory.length_readBytes ..)]

/-- A decoded frame's payload is the slice after the header, and the whole frame lies in the buffer (43_packet_decoder R167). -/
theorem decodeStream_frame_payload {buf p : List Byte} {m next : Nat} {h : Header} {computed : Half}
    (hd : decodeStream buf = .frame m h p computed next) :
    p = slice buf (m + 21) (m + 21 + h.plen.toNat) ∧ m + 25 + h.plen.toNat ≤ buf.length := by
  rcases decodeStream_cases buf with ⟨-, ho⟩ | ⟨m', -, ⟨-, ho⟩ | ⟨-, ho⟩ | ⟨h', -, ho⟩ |
    ⟨h', p', decl, nx, hp, ⟨-, ho⟩ | ⟨-, ho⟩⟩⟩ <;> cases ho.symm.trans hd
  rcases parsePacket_cases (buf.drop (m + 7)) with ⟨-, hq⟩ | ⟨-, -, hq⟩ | ⟨h', -, -, -, hq⟩ | ⟨h', hlen, -, hq⟩ <;>
    cases hq.symm.trans hp
  rw [List.length_drop] at hlen
  exact ⟨by rw [slice_drop]; congr 1; omega, by omega⟩

/-- Settles O41: R_POFF and R_PLEN name the payload's place in the input range. -/
theorem deliveredFrameIsTheDecodedOne : Obligations.DeliveredFrameIsTheDecodedOne := by
  unfold Obligations.DeliveredFrameIsTheDecodedOne
  intro s t m h p computed next hfit hd hx
  obtain ⟨hp, hlen⟩ := decodeStream_frame_payload hd
  rw [length_inputBytes] at hlen
  have hpoff : (BitVec.ofNat 32 (m + 21)).toNat = m + 21 := by
    rw [BitVec.toNat_ofNat]
    omega
  have hpayload : s.mem.readBytes (s.op.base.toNat + (m + 21)) h.plen.toNat = p := by
    rw [hp, inputBytes, slice_readBytes _ (by omega) (by omega), Nat.add_sub_cancel_left]
  cases hx
  rw [withInput_fits (by simpa using hfit)]
  simp only [inputBytes_beginCommand, hd]
  simp [deliveredFrame, Results.ofStream, Results.withHeader, hpoff, hpayload]

end Sys2Proof.Machine
end

section
/-! The registers by their numbers, STATUS, and the host's register accesses (10_state R21 to R30). -/

namespace Sys2Proof.Machine

/-- Settles O1: register by register. -/
theorem everyRegisterReadsZeroAfterReset : Obligations.EveryRegisterReadsZeroAfterReset := by
  refine ⟨fun _ r _ => ?_, rfl, rfl, rfl, rfl, rfl⟩
  cases r <;> rfl

/-- Code numbers stop at 8 (10_state R31). -/
theorem code_num_le (c : Code) : c.num.toNat ≤ 8 := by
  cases c <;> decide

/-- Bit `i` of STATUS: BUSY, DONE, two reserved bits, CODE, DECLBAD, from bit 0 up, and zeros above (10_state R30). -/
theorem getLsbD_statusWord (s : State) (i : Nat) :
    (statusWord s).getLsbD i =
      if i = 0 then busy s else if i = 1 then s.done else if i < 4 then false else if i < 8 then s.code.num.getLsbD (i - 4)
      else if i = 8 then s.declbad else false := by
  unfold statusWord
  rw [BitVec.getLsbD_append, BitVec.getLsbD_append, BitVec.getLsbD_append, BitVec.getLsbD_append, BitVec.getLsbD_append]
  simp only [BitVec.getLsbD_ofBool, BitVec.getLsbD_zero]
  grind

/-- Settles O46: the fields are runs of the bits that `getLsbD_statusWord` lists. -/
theorem statusWordLayout : Obligations.StatusWordLayout := by
  unfold Obligations.StatusWordLayout
  intro s
  refine ⟨?_, ?_, ?_, ?_, ?_, ?_, rfl, rfl, rfl, rfl, rfl, rfl, rfl, rfl, rfl, code_num_le s.code⟩
  · exact getLsbD_statusWord s 0
  · exact getLsbD_statusWord s 1
  · ext i hi
    rw [BitVec.getElem_extractLsb', getLsbD_statusWord, if_neg (by omega), if_neg (by omega), if_pos (by omega)]
    simp
  · ext i hi
    rw [BitVec.getElem_extractLsb', getLsbD_statusWord, if_neg (by omega), if_neg (by omega), if_neg (by omega),
      if_pos (by omega), Nat.add_sub_cancel_left, BitVec.getLsbD_eq_getElem]
  · exact getLsbD_statusWord s 8
  · ext i hi
    rw [BitVec.getElem_extractLsb', getLsbD_statusWord, if_neg (by omega), if_neg (by omega), if_neg (by omega),
      if_neg (by omega), if_neg (by omega)]
    simp

@[simp] theorem length_registerValues (s : State) : (registerValues s).length = 19 := rfl

/-- Every number up to 18 names a register. -/
theorem ofNumber_of_le {n : Nat} (hn : n ≤ 18) : ∃ r, Reg.ofNumber n = some r := by
  cases hr : Reg.ofNumber n with
  | some r => exact ⟨r, rfl⟩
  | none =>
    have := (ofNumber_eq_none_iff n).mp hr
    omega

/-- A number that names a register is at most 18. -/
theorem le_of_ofNumber {n : Nat} {r : Reg} (h : Reg.ofNumber n = some r) : n ≤ 18 := by
  by_contra hn
  rw [(ofNumber_eq_none_iff n).mpr (by omega)] at h
  cases h

/-- The result registers are those from number 9 on (10_state R22). -/
theorem isResult_ofNumber {n : Nat} {r : Reg} (h : Reg.ofNumber n = some r) : r.isResult = decide (9 ≤ n) := by
  have hn := le_of_ofNumber h
  interval_cases n <;> cases h <;> rfl

/-- A host write under a register's number is the register write. -/
theorem hostAccess_writeReg {n : Nat} {r : Reg} (h : Reg.ofNumber n = some r) (v : Word) (s : State) :
    hostAccess (.writeReg n v) s = .next (writeReg r v s) := by
  simp [hostAccess, h]

/-- A host read under a register's number is the register read, and one more reply. -/
theorem hostAccess_readReg {n : Nat} {r : Reg} (h : Reg.ofNumber n = some r) (s : State) :
    hostAccess (.readReg n) s = .next (addReply (.reg n (readReg r s).1) (readReg r s).2) := by
  simp [hostAccess, h]

/-- A result register of a running block aside, a register reads as its value (10_state R25, R26). -/
theorem readReg_defined {r : Reg} {s : State} (h : busy s = false ∨ r.isResult = false) : readReg r s = (regValue r s, s) := by
  rcases h with h | h <;> simp [readReg, h]

/-- A host read of such a register replies its value, and does nothing else. -/
theorem hostAccess_readReg_defined {n : Nat} {r : Reg} {s : State} (h : Reg.ofNumber n = some r)
    (hd : busy s = false ∨ r.isResult = false) :
    hostAccess (.readReg n) s = .next (addReply (.reg n (regValue r s)) s) := by
  rw [hostAccess_readReg h, readReg_defined hd]

/-- A register read changes nothing but the free counter. -/
theorem readReg_state (r : Reg) (s : State) : (readReg r s).2 = { s with freeIdx := (readReg r s).2.freeIdx } := by
  unfold readReg
  split <;> rfl

/-- STATUS and the result registers ignore a register write (10_state R26, R30). -/
theorem writeReg_readOnly {r : Reg} (h : r = .status ∨ r.isResult = true) (v : Word) (s : State) : writeReg r v s = s := by
  have hkeep : r ≠ .cmd ∧ setOperand r v s.op = s.op := by cases r <;> simp [Reg.isResult, setOperand] at h ⊢
  rw [writeReg_not_cmd hkeep.1, hkeep.2, ite_self]

/-- Settles O49: the numbers are those of STATUS and of the result registers. -/
theorem statusAndResultsIgnoreWrites : Obligations.StatusAndResultsIgnoreWrites := by
  unfold Obligations.StatusAndResultsIgnoreWrites
  refine fun s v n => ⟨fun hn => ?_, fun hn => ?_⟩
  · obtain ⟨r, hr⟩ := ofNumber_of_le (n := n) (by omega)
    have hro : r = .status ∨ r.isResult = true := by
      rcases hn with rfl | ⟨hn, -⟩
      · cases hr
        exact .inl rfl
      · exact .inr (by simpa [hn] using isResult_ofNumber hr)
    rw [hostAccess_writeReg hr, writeReg_readOnly hro]
  · simp [hostAccess, (ofNumber_eq_none_iff n).mpr hn]

/-- Settles O50: the table lists each number's register, and a read replies its value where the spec defines it. -/
theorem hostReadsReturnTheRegister : Obligations.HostReadsReturnTheRegister := by
  unfold Obligations.HostReadsReturnTheRegister
  refine fun s n => ⟨fun v hv => ?_, ?_, fun hn => ?_⟩
  · obtain ⟨hn, -⟩ := List.getElem?_eq_some_iff.mp hv
    rw [length_registerValues] at hn
    obtain ⟨r, hr⟩ := ofNumber_of_le (n := n) (by omega)
    have hval : regValue r s = v := Option.some.inj ((registerValues_ofNumber hr s).symm.trans hv)
    refine ⟨_, (readReg r s).1, hostAccess_readReg hr s, by rw [readReg_state]; rfl, fun hdef => ?_⟩
    have hdef' : busy s = false ∨ r.isResult = false :=
      hdef.imp_right fun hlt => by rw [isResult_ofNumber hr]; exact decide_eq_false (by omega)
    rw [readReg_defined hdef', hval]
  · rw [List.getElem?_eq_none_iff, length_registerValues]
    omega
  · simp [hostAccess, (ofNumber_eq_none_iff n).mpr hn]

/-- A write to CMD while BUSY is ignored (10_state R29). -/
theorem writeCmd_busy {s : State} (hb : busy s = true) (w : Word) : writeCmd w s = s := by
  simp [writeCmd, hb]

/-- A reserved word written in IDLE finishes at once (30_encoding R90). -/
theorem writeCmd_reserved {s : State} (hb : busy s = false) {w : Word} (hw : reservedWord w = true) :
    writeCmd w s = finish .errCmd (startCommand w s) := by
  simp [writeCmd, hb, hw]

/-- Any other word written in IDLE starts its command (10_state R41). -/
theorem writeCmd_starts {s : State} (hb : busy s = false) {w : Word} (hw : reservedWord w = false) :
    writeCmd w s = startCommand w s := by
  simp [writeCmd, hb, hw]

/-- STATUS right after a command's start: BUSY alone (10_state R41, log 2). -/
theorem statusWord_startCommand (w : Word) (s : State) : statusWord (startCommand w s) = 1#32 := by
  simp only [statusWord, startCommand_declbad, startCommand_code, startCommand_done, busy_startCommand]
  decide

/-- Settles O47: the write is `writeCmd`, in its three cases. -/
theorem cmdWriteStartsACommandOnlyWhenIdle : Obligations.CmdWriteStartsACommandOnlyWhenIdle := by
  unfold Obligations.CmdWriteStartsACommandOnlyWhenIdle
  intro s w
  have hwrite : hostAccess (.writeReg 0 w) s = .next (writeCmd w s) := rfl
  refine ⟨?_, fun hb => ?_, fun hb => ?_⟩
  · exact hostAccess_readReg_defined (r := .cmd) rfl (.inr rfl)
  · rw [hwrite, writeCmd_busy hb]
  · cases hw : reservedWord w with
    | true =>
      rw [writeCmd_reserved hb hw] at hwrite
      exact ⟨_, hwrite, ⟨rfl, rfl, rfl, rfl, rfl⟩, fun _ => rfl, rfl, rfl, fun _ => ⟨rfl, rfl, rfl⟩, nofun⟩
    | false =>
      rw [writeCmd_starts hb hw] at hwrite
      exact ⟨_, hwrite, ⟨rfl, rfl, rfl, rfl, rfl⟩, fun _ => rfl, rfl, rfl, nofun,
        fun _ => ⟨⟨_, rfl, rfl, rfl, rfl, rfl⟩, rfl, rfl, statusWord_startCommand w s⟩⟩

/-- The low `k` bits of a word, zero-extended, as a number (10_state R25). -/
theorem setWidth_setWidth_eq_ofNat (v : Word) (k : Nat) : (v.setWidth k).setWidth 32 = BitVec.ofNat 32 (v.toNat % 2 ^ k) := by
  apply BitVec.eq_of_toNat_eq
  simp

section
variable {n : Nat} {r : Reg} (hr : Reg.ofNumber n = some r) (h2 : 2 ≤ n) (h8 : n ≤ 8) (v : Word) (s : State)
include hr h2 h8

/-- The operand registers are neither CMD nor result registers (10_state R21). -/
theorem operand_ne_cmd : r ≠ .cmd := by
  interval_cases n <;> cases hr <;> decide

/-- An operand register written holds the low bits of its width (10_state R25). -/
theorem regValue_setOperand :
    regValue r { s with op := setOperand r v s.op } = BitVec.ofNat 32 (v.toNat % 2 ^ operandWidth n) := by
  rw [← setWidth_setWidth_eq_ofNat]
  interval_cases n <;> cases hr <;> simp [regValue, setOperand, operandWidth]

/-- Writing an operand register changes that register's value and no other's. -/
theorem registerValues_setOperand :
    registerValues { s with op := setOperand r v s.op } =
      (registerValues s).set n (regValue r { s with op := setOperand r v s.op }) := by
  interval_cases n <;> cases hr <;> rfl

end

/-- Settles O48: a write sets the one operand register, and commands keep the operands by `exec_finishes`. -/
theorem operandWritesTruncateAndWaitForIdle : Obligations.OperandWritesTruncateAndWaitForIdle := by
  unfold Obligations.OperandWritesTruncateAndWaitForIdle
  refine ⟨fun s v n h2 h8 => ?_, fun i s t hi hx => ?_⟩
  · obtain ⟨r, hr⟩ := ofNumber_of_le (n := n) (by omega)
    have hwrite := hostAccess_writeReg hr v s
    rw [writeReg_not_cmd (operand_ne_cmd hr h2 h8)] at hwrite
    refine ⟨fun hb => by rw [hwrite, if_pos hb], fun hb => ?_⟩
    rw [if_neg (by simp [hb])] at hwrite
    have hvalues := registerValues_setOperand hr h2 h8 v s
    have hread := hostAccess_readReg_defined (s := { s with op := setOperand r v s.op }) hr (.inl hb)
    rw [regValue_setOperand hr h2 h8] at hvalues hread
    exact ⟨_, hwrite, hvalues, rfl, hread⟩
  · obtain ⟨c, b, res, m, rfl, -⟩ := exec_finishes hi hx
    rfl

end Sys2Proof.Machine
end

section
/-! What a step is, by who moves next (10_state R27, R41). -/

namespace Sys2Proof.Machine

/-- The block moves when a command runs and the host has nothing to do but wait. -/
theorem fetch_busy_waiting {s : State} {k : Working} (hk : s.seq = .busy k)
    (hp : s.program = [] ∨ s.program.head? = some .wait) : fetch s = .command (decodeCommand k.command) s := by
  cases hprog : s.program with
  | nil => simp [fetch, hk, hprog]
  | cons a rest =>
    have ha : a = .wait := by simpa [hprog] using hp
    simp [fetch, hk, hprog, ha]

/-- While a command runs and the host has another access, a free value says who moves (log 3). -/
theorem fetch_busy_access {s : State} {k : Working} {a : HostAccess} {rest : List HostAccess} (hk : s.seq = .busy k)
    (hp : s.program = a :: rest) (ha : a ≠ .wait) :
    fetch s = if Config.blockFirst s.freeIdx = true then .command (decodeCommand k.command) (takeFree s)
      else .host a { takeFree s with program := rest } := by
  cases a with
  | wait => exact absurd rfl ha
  | _ => simp [fetch, hk, hp]

/-- While IDLE the host moves, unless it waits for a DONE that is not there. -/
theorem fetch_idle_access {s : State} {a : HostAccess} {rest : List HostAccess} (hs : s.seq = .idle)
    (hp : s.program = a :: rest) (ha : a ≠ .wait ∨ s.done = true) : fetch s = .host a { s with program := rest } := by
  cases a with
  | wait => simp [fetch, idleTurn, hs, hp, ha.resolve_left (fun h => h rfl)]
  | _ => simp [fetch, idleTurn, hs, hp]

/-- While IDLE nothing moves when the host has no access, or waits for a DONE that is not there (logs 14, 15). -/
theorem fetch_idle_nothing {s : State} (hs : s.seq = .idle)
    (hp : s.program = [] ∨ (s.program.head? = some .wait ∧ s.done = false)) : fetch s = .nothing := by
  cases hprog : s.program with
  | nil => simp [fetch, idleTurn, hs, hprog]
  | cons a rest =>
    obtain ⟨ha, hd⟩ : a = .wait ∧ s.done = false := by simpa [hprog] using hp
    simp [fetch, idleTurn, hs, hprog, ha, hd]

/-- The arrival of a frame is the arrival of its bytes (log 10). -/
theorem exec_wireFrame_eq_receive {d sr : Half} {ty : Byte} {p b : List Byte} (hb : encodeFrame ⟨d, sr, ty, p⟩ = some b)
    (s : State) : exec (.wireFrame d sr ty p) s = hostAccess (.receive b) s := by
  simp [exec, execWireFrame, hb, hostAccess]

/-- Settles O54: the cases of `fetch`. -/
theorem stepRunsTheDecodedInstruction : Obligations.StepRunsTheDecodedInstruction := by
  unfold Obligations.StepRunsTheDecodedInstruction
  refine ⟨fun s k i hk hi => ?_, fun s a rest hs hp => ?_, fun s hs hp => ?_⟩
  · cases hi
    refine ⟨fun hp => by simp [step, fetch_busy_waiting hk hp], fun a rest hp ha => ?_⟩
    unfold step
    rw [fetch_busy_access hk hp ha]
    by_cases hfirst : Config.blockFirst s.freeIdx = true
    · rw [if_pos hfirst, if_pos hfirst]
      rfl
    · rw [if_neg hfirst, if_neg hfirst]
      rfl
  · have hstep : a ≠ .wait ∨ s.done = true → step s = hostAccess a { s with program := rest } := fun ha => by
      simp [step, fetch_idle_access hs hp ha]
    refine ⟨hstep, fun d sr ty p b hb ha => ?_⟩
    subst ha
    rw [hstep (.inl (by simp)), exec_wireFrame_eq_receive hb]
  · simp [step, fetch_idle_nothing hs hp]

end Sys2Proof.Machine
end

section
/-! Buffer memory: who writes it, who may touch it while a command runs, and what does not depend on it (20_memory R51 to R62). -/

namespace Sys2Proof.Machine

/-! ## What a decode outcome depends on (R56) -/

/-- The first marker is decided by the bytes up to its end (42_scanner R140). -/
theorem findMarker_of_take_eq {b c : List Byte} {m : Nat} (h : b.take (m + 7) = c.take (m + 7))
    (hb : findMarker b = some m) : findMarker c = some m := by
  induction b generalizing c m with
  | nil => cases hb
  | cons x rest ih =>
    cases c with
    | nil => simp at h
    | cons y rest' =>
      have h7 : (x :: rest).take 7 = (y :: rest').take 7 := by simpa [List.take_take] using congrArg (List.take 7) h
      obtain ⟨-, htail⟩ : x = y ∧ rest.take (m + 6) = rest'.take (m + 6) := by simpa using h
      rw [findMarker_cons] at hb ⊢
      rw [← h7]
      split
      · next hmark => rwa [if_pos hmark] at hb
      · next hmark =>
        rw [if_neg hmark] at hb
        obtain ⟨k, hk, rfl⟩ := Option.map_eq_some_iff.mp hb
        rw [ih (by rwa [Nat.add_comm 1 k, Nat.add_assoc] at htail) hk]
        rfl

/-- A slice that ends by `k` is decided by the first `k` bytes. -/
theorem slice_eq_of_take_eq {t u : List Byte} {k : Nat} (h : t.take k = u.take k) {i j : Nat} (hj : j ≤ k) :
    slice t i j = slice u i j := by
  have hcut : ∀ b : List Byte, slice b i j = ((b.take k).take j).drop i := fun b => by
    rw [List.take_take, Nat.min_eq_left hj, List.drop_take, slice]
  rw [hcut, hcut, h]

/-- The header fields are read from the first 14 bytes (43_packet_decoder R163). -/
theorem parseHeader_eq_of_take_eq {t u : List Byte} (h : t.take 14 = u.take 14) : parseHeader t = parseHeader u := by
  unfold parseHeader
  rw [slice_eq_of_take_eq h (by omega), slice_eq_of_take_eq h (by omega), slice_eq_of_take_eq h (by omega),
    slice_eq_of_take_eq h (by omega)]

/-- Where no packet is there yet, the result is decided by the length and the header (43_packet_decoder R164). -/
theorem parsePacket_eq_of_take_eq {t u : List Byte} (hlen : t.length = u.length) (h : t.take 14 = u.take 14)
    (hp : ∀ hd p decl nx, parsePacket t ≠ .packet hd p decl nx) : parsePacket u = parsePacket t := by
  have hhead := parseHeader_eq_of_take_eq h
  rcases parsePacket_cases t with ⟨hs, ht⟩ | ⟨hs, hn, ht⟩ | ⟨hd, hs, hh, hbody, ht⟩ | ⟨hd, -, -, ht⟩
  · rw [ht, parsePacket, if_pos (by omega)]
  · rw [ht, parsePacket, if_neg (by omega), ← hhead, hn]
  · rw [ht, parsePacket, if_neg (by omega), ← hhead, hh]
    exact if_pos (by omega)
  · exact absurd ht (hp _ _ _ _)

/-- WAIT_HEADER, ERR_HEX and WAIT_BODY for a marker at `m` come from a first marker there and no packet after it. -/
theorem decodeStream_undecided {buf : List Byte} {m : Nat} {h : Header}
    (ho : decodeStream buf = .waitHeader m ∨ decodeStream buf = .errHex m ∨ decodeStream buf = .waitBody m h) :
    findMarker buf = some m ∧ ∀ hd p decl nx, parsePacket (buf.drop (m + 7)) ≠ .packet hd p decl nx := by
  rcases decodeStream_cases buf with ⟨-, hd⟩ | ⟨k, hm, ⟨hp, hd⟩ | ⟨hp, hd⟩ | ⟨h', hp, hd⟩ |
    ⟨h', p, decl, nx, -, ⟨-, hd⟩ | ⟨-, hd⟩⟩⟩ <;> rw [hd] at ho
  · simp at ho
  · obtain rfl : k = m := by simpa using ho
    exact ⟨hm, by simp [hp]⟩
  · obtain rfl : k = m := by simpa using ho
    exact ⟨hm, by simp [hp]⟩
  · obtain ⟨rfl, -⟩ : k = m ∧ h' = h := by simpa using ho
    exact ⟨hm, by simp [hp]⟩
  · simp at ho
  · simp at ho

/-- Settles O19: the same first marker, and after it the same length and the same header. -/
theorem undecidedOutcomesIgnoreBytesAfterTheHeader : Obligations.UndecidedOutcomesIgnoreBytesAfterTheHeader := by
  unfold Obligations.UndecidedOutcomesIgnoreBytesAfterTheHeader
  intro b c m h hlen htake ho
  obtain ⟨hm, hp⟩ := decodeStream_undecided ho
  have hmark : b.take (m + 7) = c.take (m + 7) := by
    simpa [List.take_take] using congrArg (List.take (m + 7)) htake
  have hhead : (b.drop (m + 7)).take 14 = (c.drop (m + 7)).take 14 := by
    simpa [List.take_drop] using congrArg (List.drop (m + 7)) htake
  have hpacket := parsePacket_eq_of_take_eq (by simp [hlen]) hhead hp
  unfold decodeStream
  rw [hm, findMarker_of_take_eq hmark hm]
  dsimp only
  rw [hpacket]

/-! ## Frames of the commands (R54) -/

/-- A run of bytes written changes no byte outside it. -/
theorem sameMemoryOutside_writeBytes (s : State) (a : Nat) (bytes : List Byte) :
    SameMemoryOutside a bytes.length s (setMem (s.mem.writeBytes a bytes) s) :=
  fun _ hx => Memory.read_writeBytes_outside hx

/-- A finished command has kept the operands, MEM_SIZE and the host's side (10_state R40). -/
theorem operandsAndHostKept_finished (s : State) (c : Code) (b : Bool) (r : Results) (m : Memory) :
    OperandsAndHostKept s (finish c (setRes r (setDeclbad b (setMem m (beginCommand s))))) :=
  ⟨rfl, rfl, rfl, rfl, rfl⟩

/-- Settles O35: by `exec_finishes`, memory is as before unless the instruction is ENCODE. -/
theorem nonStoringCommandsKeepMemoryAndOperands : Obligations.NonStoringCommandsKeepMemoryAndOperands := by
  unfold Obligations.NonStoringCommandsKeepMemoryAndOperands
  intro i s t hencode hframe hx
  obtain ⟨c, b, r, m, rfl, hm, -⟩ := exec_finishes hframe hx
  rcases hm with rfl | ⟨hi, -⟩
  · exact ⟨operandsAndHostKept_finished .., fun _ => rfl⟩
  · exact absurd hi hencode

/-- Settles O36: a failed check writes nothing, and the output is no longer than its range. -/
theorem encodeWritesOnlyItsOutputRange : Obligations.EncodeWritesOnlyItsOutputRange := by
  unfold Obligations.EncodeWritesOnlyItsOutputRange
  intro s t hx
  rcases execEncode_cases s with ⟨-, he⟩ | ⟨-, he⟩ <;> cases he.symm.trans hx
  · exact ⟨⟨rfl, rfl, rfl, rfl, rfl⟩, fun _ _ => rfl, fun _ => ⟨fun _ => rfl, rfl⟩⟩
  · refine ⟨⟨rfl, rfl, rfl, rfl, rfl⟩, fun x hx => ?_, fun hc => absurd rfl hc⟩
    have hlen : (encodeOutput s).length ≤ 25 + s.op.len.toNat := length_encodeOutput_le s
    exact Memory.read_writeBytes_outside (by omega)

/-! ## The host's own stores and loads (R50, R58) -/

/-- A load inside MEM_SIZE that touches no output range replies the bytes. -/
theorem hostLoad_free {a n : Nat} {s : State} (hfit : a + n ≤ s.memSize) (hfree : touchesOutput s a n = false) :
    hostLoad a n s = .next (addReply (.bytes a (s.mem.readBytes a n)) s) := by
  simp [hostLoad, Nat.not_lt.mpr hfit, hfree]

/-- A load inside MEM_SIZE that touches a running ENCODE's output range stops (log 12). -/
theorem hostLoad_touches {a n : Nat} {s : State} (hfit : a + n ≤ s.memSize) (hused : touchesOutput s a n = true) :
    hostLoad a n s = .fault (.hostTouchesRange a n) := by
  simp [hostLoad, Nat.not_lt.mpr hfit, hused]

/-- No ENCODE runs in an idle block, so no output range is in use. -/
theorem touchesOutput_idle {s : State} (hi : s.seq = .idle) (a n : Nat) : touchesOutput s a n = false := by
  simp [touchesOutput, encodeRunning, hi]

/-- Settles O51: an idle block's memory takes the bytes and gives them back. -/
theorem hostStoreThenLoadReturnsTheBytes : Obligations.HostStoreThenLoadReturnsTheBytes := by
  unfold Obligations.HostStoreThenLoadReturnsTheBytes
  intro s a bytes hwf hi
  refine ⟨fun hfit => ?_, fun hout => ⟨if_pos hout, if_pos hout⟩⟩
  have hload := hostLoad_free (s := setMem (s.mem.writeBytes a bytes) s) hfit (touchesOutput_idle hi a bytes.length)
  rw [setMem_mem, Memory.readBytes_writeBytes hwf] at hload
  exact ⟨_, _, hostStore_idle hi hfit, sameMemoryOutside_writeBytes s a bytes, rfl, Memory.wf_writeBytes hwf, hload, rfl⟩

/-- Settles O52: a store or load either touches a range in use or goes through. -/
theorem hostExclusionWhileBusy : Obligations.HostExclusionWhileBusy := by
  unfold Obligations.HostExclusionWhileBusy
  intro s k a bytes hk hfit
  refine ⟨?_, ?_, fun hfree => ?_, fun hfree => ?_⟩
  · rintro ⟨x, hx, hin⟩
    exact hostStore_touches hk hfit ⟨x, hx, .inl hin⟩
  · rintro ⟨x, hx, hout⟩
    exact ⟨hostStore_touches hk hfit ⟨x, hx, .inr hout⟩, hostLoad_touches hfit ((touchesOutput_iff hk _ _).mpr ⟨x, hx, hout⟩)⟩
  · exact ⟨_, hostStore_busy hk hfit hfree, rfl, sameMemoryOutside_writeBytes s a bytes,
      fun hwf => Memory.readBytes_writeBytes hwf a bytes⟩
  · refine hostLoad_free hfit (Bool.eq_false_iff.mpr fun hused => ?_)
    obtain ⟨x, ⟨hlo, hhi⟩, hout⟩ := (touchesOutput_iff hk _ _).mp hused
    exact hfree x hlo hhi hout

/-! ## Bytes that arrive (R51) -/

/-- Bytes written behind a range leave the range as it was. -/
theorem Memory.readBytes_writeBytes_behind (m : Memory) (a n : Nat) (bytes : List Byte) :
    (m.writeBytes (a + n) bytes).readBytes a n = m.readBytes a n :=
  Memory.readBytes_congr fun _ _ _ => Memory.read_writeBytes_outside (by omega)

/-- Bytes written behind a range make it longer by them. -/
theorem Memory.readBytes_writeBytes_append {m : Memory} (hm : m.wf = true) (a n : Nat) (bytes : List Byte) :
    (m.writeBytes (a + n) bytes).readBytes a (n + bytes.length) = m.readBytes a n ++ bytes := by
  rw [Memory.readBytes_add, Memory.readBytes_writeBytes_behind, Memory.readBytes_writeBytes hm]

section
variable {s : State} {bytes : List Byte} (hfit : s.op.base.toNat + s.op.len.toNat + bytes.length ≤ s.memSize)
  (hlen : s.op.len.toNat + bytes.length < 2 ^ 32)
include hfit hlen

/-- There is room for the bytes. -/
theorem canAppend_of_room : canAppend bytes.length s = true := decide_eq_true ⟨hfit, hlen⟩

/-- An idle block takes the bytes behind its decode buffer, and OP_LEN then names the longer buffer. -/
theorem receive_idle (hi : s.seq = .idle) :
    receive bytes s = .next (setMem (s.mem.writeBytes (s.op.base.toNat + s.op.len.toNat) bytes)
      { s with op := { s.op with len := BitVec.ofNat 32 (s.op.len.toNat + bytes.length) } }) := by
  simp only [receive, canAppend_of_room hfit hlen, if_true, hostStore_idle hi hfit]
  rw [writeReg_not_cmd (by decide), if_neg (by simp [hi])]
  rfl

/-- While a command runs the bytes are written, but OP_LEN ignores its increase (log 27): bytes behind the decode buffer are never
in the input range, so only an ENCODE's output range is in their way. -/
theorem receive_busy {k : Working} (hk : s.seq = .busy k)
    (hfree : ∀ x, s.op.base.toNat + s.op.len.toNat ≤ x → x < s.op.base.toNat + s.op.len.toNat + bytes.length →
      ¬InRunningOutput k s x) :
    receive bytes s = .next (setMem (s.mem.writeBytes (s.op.base.toNat + s.op.len.toNat) bytes) s) := by
  have hstore := hostStore_busy hk hfit fun x hlo hhi => ⟨fun hin => absurd hin.2 (by omega), hfree x hlo hhi⟩
  simp only [receive, canAppend_of_room hfit hlen, if_true, hstore]
  rw [writeReg_not_cmd (by decide), if_pos (by simp [hk])]

/-- Bytes that would touch a running ENCODE's output range stop (log 12). -/
theorem receive_touches {k : Working} (hk : s.seq = .busy k)
    (hused : ∃ x, (s.op.base.toNat + s.op.len.toNat ≤ x ∧ x < s.op.base.toNat + s.op.len.toNat + bytes.length) ∧
      InRunningOutput k s x) :
    receive bytes s = .fault (.hostTouchesRange (s.op.base.toNat + s.op.len.toNat) bytes.length) := by
  obtain ⟨x, hx, hout⟩ := hused
  simp only [receive, canAppend_of_room hfit hlen, if_true, hostStore_touches hk hfit ⟨x, hx, .inr hout⟩]

end

/-- Settles O53: idle, the input grows by the bytes stored behind it; busy, OP_LEN and the bytes it names are as before. -/
theorem receivedBytesFollowTheOldInput : Obligations.ReceivedBytesFollowTheOldInput := by
  unfold Obligations.ReceivedBytesFollowTheOldInput
  intro s bytes hwf hfit hlen
  refine ⟨fun hi => ?_, fun k hk => ⟨fun hfree => ?_, receive_touches hfit hlen hk⟩⟩
  · refine ⟨_, receive_idle hfit hlen hi, ?_, sameMemoryOutside_writeBytes s _ bytes,
      rfl, rfl, rfl, rfl, rfl, rfl, rfl, rfl, rfl, rfl⟩
    simp only [inputBytes, setMem_mem, setMem_op, BitVec.toNat_ofNat, Nat.mod_eq_of_lt hlen, Memory.readBytes_writeBytes_append hwf]
  · exact ⟨_, receive_busy hfit hlen hk hfree, rfl, Memory.readBytes_writeBytes_behind .., Memory.readBytes_writeBytes hwf ..,
      sameMemoryOutside_writeBytes s _ bytes⟩

/-- Settles O33: a frame's arrival is the arrival of its 25 + len bytes. -/
theorem arrivingFrameExtendsTheDecodeBuffer : Obligations.ArrivingFrameExtendsTheDecodeBuffer := by
  unfold Obligations.ArrivingFrameExtendsTheDecodeBuffer
  intro s d sr ty p hwf hp hfit hlen
  obtain ⟨b, hb, hbytes⟩ : ∃ b, encodeFrame ⟨d, sr, ty, p⟩ = some b ∧ 25 + p.length = b.length :=
    ⟨_, encodeFrame_eq_some_iff.mpr ⟨hp, rfl⟩, (length_frameBytes ⟨d, sr, ty, p⟩).symm⟩
  have hexec : exec (.wireFrame d sr ty p) s = receive b s := exec_wireFrame_eq_receive hb s
  have hstored : encodeFrame ⟨d, sr, ty, p⟩ =
      some ((s.mem.writeBytes (s.op.base.toNat + s.op.len.toNat) b).readBytes (s.op.base.toNat + s.op.len.toNat) b.length) := by
    rw [Memory.readBytes_writeBytes hwf, hb]
  simp only [Nat.add_assoc (_ + s.op.len.toNat) 25, Nat.add_assoc s.op.len.toNat 25, hbytes, hexec] at hfit hlen ⊢
  refine ⟨fun hi => ?_, fun k hk => ⟨fun hfree => ?_, receive_touches hfit hlen hk⟩⟩
  · exact ⟨_, receive_idle hfit hlen hi, ⟨rfl, rfl, rfl, rfl, rfl, rfl, rfl, rfl, rfl, rfl⟩,
      Nat.mod_eq_of_lt hlen, hstored, sameMemoryOutside_writeBytes s _ b⟩
  · exact ⟨_, receive_busy hfit hlen hk hfree, rfl, hstored, sameMemoryOutside_writeBytes s _ b⟩

/-! ## Memory is data alone (R62) -/

/-- A host that has more to do than wait has an access to make. -/
theorem program_access {program : List HostAccess} (h : ¬(program = [] ∨ program.head? = some .wait)) :
    ∃ a rest, program = a :: rest ∧ a ≠ .wait := by
  cases program with
  | nil => simp at h
  | cons a rest => exact ⟨a, rest, rfl, by simpa using h⟩

/-- Settles O57: who moves is decided by the sequencer, the host's program, DONE and the free value. -/
theorem memoryIsNeverExecuted : Obligations.MemoryIsNeverExecuted := by
  unfold Obligations.MemoryIsNeverExecuted
  intro s m
  cases hs : s.seq with
  | idle =>
    by_cases hnone : s.program = [] ∨ (s.program.head? = some .wait ∧ s.done = false)
    · rw [fetch_idle_nothing hs hnone, fetch_idle_nothing (s := setMem m s) hs hnone]
    · cases hp : s.program with
      | nil => exact absurd (.inl hp) hnone
      | cons a rest =>
        have ha : a ≠ .wait ∨ s.done = true := by simpa [hp, imp_iff_not_or] using hnone
        rw [fetch_idle_access hs hp ha, fetch_idle_access (s := setMem m s) hs hp ha]
        rfl
  | busy k =>
    by_cases hwait : s.program = [] ∨ s.program.head? = some .wait
    · rw [fetch_busy_waiting hs hwait, fetch_busy_waiting (s := setMem m s) hs hwait]
    · obtain ⟨a, rest, hp, ha⟩ := program_access hwait
      rw [fetch_busy_access hs hp ha, fetch_busy_access (s := setMem m s) hs hp ha, setMem_freeIdx]
      split <;> rfl

end Sys2Proof.Machine
end

section
/-! Hexadecimal fields: what parses and what renders to what (30_encoding R78 to R81). -/

namespace Sys2Proof.Machine

/-- `hex4` renders the value that `parse_hex` reads (30_encoding R81). -/
theorem parseHex_hex4 (v : Half) : parseHex (hex4 v) = some v.toNat := by
  simp only [hex4, parseHex, hexval_hexdigit, List.length_cons, List.length_nil, Nat.reduceAdd, Nat.reducePow]
  rw [Option.some.injEq, ← nibbles_of_half v]
  omega

/-- `hex2` renders the value that `parse_hex` reads (30_encoding R81). -/
theorem parseHex_hex2 (v : Byte) : parseHex (hex2 v) = some v.toNat := by
  simp only [hex2, parseHex, hexval_hexdigit, List.length_cons, List.length_nil, Nat.reduceAdd, Nat.reducePow]
  rw [Option.some.injEq, ← nibbles_of_byte v]
  omega

/-- `hex4` is injective, since parsing inverts it. -/
theorem hex4_injective {v w : Half} (h : hex4 v = hex4 w) : v = w := by
  have hparse := congrArg parseHex h
  rw [parseHex_hex4, parseHex_hex4] at hparse
  exact BitVec.eq_of_toNat_eq (Option.some.inj hparse)

/-- `hex2` is injective, since parsing inverts it. -/
theorem hex2_injective {v w : Byte} (h : hex2 v = hex2 w) : v = w := by
  have hparse := congrArg parseHex h
  rw [parseHex_hex2, parseHex_hex2] at hparse
  exact BitVec.eq_of_toNat_eq (Option.some.inj hparse)

/-- Rendered digits are lowercase (30_encoding R80). -/
theorem isLowerHexDigit_hexdigit : ∀ d : BitVec 4, isLowerHexDigit (hexdigit d) = true := by decide

/-- Lowering leaves a rendered digit as it is. -/
theorem lowerHexLetter_hexdigit : ∀ d : BitVec 4, lowerHexLetter (hexdigit d) = hexdigit d := by decide

/-- Every byte of a rendered 16-bit field is a lowercase digit. -/
theorem isLowerHexDigit_of_mem_hex4 {v : Half} {c : Byte} (h : c ∈ hex4 v) : isLowerHexDigit c = true := by
  simp only [hex4, List.mem_cons, List.not_mem_nil, or_false] at h
  rcases h with rfl | rfl | rfl | rfl <;> exact isLowerHexDigit_hexdigit _

/-- Every byte of a rendered 8-bit field is a lowercase digit. -/
theorem isLowerHexDigit_of_mem_hex2 {v c : Byte} (h : c ∈ hex2 v) : isLowerHexDigit c = true := by
  simp only [hex2, List.mem_cons, List.not_mem_nil, or_false] at h
  rcases h with rfl | rfl <;> exact isLowerHexDigit_hexdigit _

/-- Lowering leaves a rendered field as it is. -/
theorem map_lowerHexLetter_hex4 (v : Half) : (hex4 v).map lowerHexLetter = hex4 v := by
  simp only [hex4, List.map_cons, List.map_nil, lowerHexLetter_hexdigit]

/-- A digit's value renders to the digit, lowered. -/
theorem hexdigit_of_hexval : ∀ (c : Byte) (d : Nat), hexval c = some d → hexdigit (BitVec.ofNat 4 d) = lowerHexLetter c := by
  have hall : ∀ c : Byte, (hexval c).all (fun d => hexdigit (BitVec.ofNat 4 d) = lowerHexLetter c) = true := by decide
  intro c d h
  simpa [h] using hall c

/-- Lowering leaves exactly the bytes that are no uppercase letter. -/
theorem lowerHexLetter_eq_self_iff (c : Byte) : lowerHexLetter c = c ↔ isUpperHexLetter c = false := by
  unfold lowerHexLetter
  split
  · next h => simp [h]
  · next h => simpa using h

/-- The bytes of a well-formed field are decided, up to letter case, by the values of its digits. -/
theorem map_lowerHexLetter_of_parseHex {t : List Byte} {v : Nat} (h : parseHex t = some v) :
    t.map lowerHexLetter = (t.map hexval).map fun o => hexdigit (BitVec.ofNat 4 (o.getD 0)) := by
  rw [List.map_map]
  refine List.map_congr_left fun c hc => ?_
  cases hd : hexval c with
  | none => simp [parseHex_eq_none_iff.mpr ⟨c, hc, hd⟩] at h
  | some d => simp [hd, hexdigit_of_hexval c d hd]

/-- Rendering inverts parsing up to letter case (30_encoding R81): equal values, hence equal digits. -/
theorem hex4_of_parseHex {t : List Byte} {v : Nat} (hlen : t.length = 4) (h : parseHex t = some v) :
    hex4 (BitVec.ofNat 16 v) = t.map lowerHexLetter := by
  have hv : v < 16 ^ 4 := hlen ▸ parseHex_lt h
  have hrendered : parseHex (hex4 (BitVec.ofNat 16 v)) = some v := by
    rw [parseHex_hex4, BitVec.toNat_ofNat, Nat.mod_eq_of_lt (by omega)]
  calc hex4 (BitVec.ofNat 16 v)
      = (hex4 (BitVec.ofNat 16 v)).map lowerHexLetter := (map_lowerHexLetter_hex4 _).symm
    _ = t.map lowerHexLetter := by
      rw [map_lowerHexLetter_of_parseHex hrendered, map_lowerHexLetter_of_parseHex h,
        parseHex_digits_eq (by rw [length_hex4, hlen]) hrendered h]

/-- Settles O6. -/
theorem hexFieldsRoundTrip : Obligations.HexFieldsRoundTrip := by
  unfold Obligations.HexFieldsRoundTrip
  refine ⟨parseHex_hex4, parseHex_hex2, fun t v hlen h => ?_, fun _ _ => hex4_injective, fun _ _ => hex2_injective, rfl, rfl⟩
  have hlower := hex4_of_parseHex hlen h
  have hfixed : t.map lowerHexLetter = t ↔ ∀ c ∈ t, lowerHexLetter c = c := by
    simpa using List.map_inj_left (l := t) (f := lowerHexLetter) (g := id)
  exact ⟨hlower, by rw [hlower, hfixed]; exact forall₂_congr fun c _ => lowerHexLetter_eq_self_iff c⟩

end Sys2Proof.Machine
end

section
/-! The wire frame: where its fields stand, and that the decoder reads them back (30_encoding R74, 41_encoder R120, R125). -/

namespace Sys2Proof.Machine

/-- A slice of a list is the part that stands there. -/
theorem slice_of_isPrefix {buf a b : List Byte} {i j : Nat} (h : a ++ b <+: buf) (hi : a.length = i) (hj : i + b.length = j) :
    slice buf i j = b := by
  obtain ⟨c, rfl⟩ := h
  subst hi hj
  simp [slice]

/-! The fields of a frame's bytes, in the order of 30_encoding R74. -/

section
variable (f : Frame)

theorem slice_frameBytes_marker : slice (frameBytes f) 0 7 = marker :=
  slice_of_isPrefix (a := []) (by simp [frameBytes]) rfl rfl

theorem slice_frameBytes_dest : slice (frameBytes f) 7 11 = hex4 f.dest :=
  slice_of_isPrefix (a := marker) (by simp [frameBytes]) rfl rfl

theorem slice_frameBytes_src : slice (frameBytes f) 11 15 = hex4 f.src :=
  slice_of_isPrefix (a := marker ++ hex4 f.dest) (by simp [frameBytes]) rfl rfl

theorem slice_frameBytes_typ : slice (frameBytes f) 15 17 = hex2 f.typ :=
  slice_of_isPrefix (a := marker ++ hex4 f.dest ++ hex4 f.src) (by simp [frameBytes]) rfl rfl

theorem slice_frameBytes_plen : slice (frameBytes f) 17 21 = hex4 (BitVec.ofNat 16 f.payload.length) :=
  slice_of_isPrefix (a := marker ++ hex4 f.dest ++ hex4 f.src ++ hex2 f.typ) (by simp [frameBytes]) rfl rfl

theorem slice_frameBytes_header :
    slice (frameBytes f) 7 21 = hex4 f.dest ++ hex4 f.src ++ hex2 f.typ ++ hex4 (BitVec.ofNat 16 f.payload.length) :=
  slice_of_isPrefix (a := marker) (by simp [frameBytes]) rfl rfl

theorem slice_frameBytes_payload : slice (frameBytes f) 21 (21 + f.payload.length) = f.payload :=
  slice_of_isPrefix (a := marker ++ hex4 f.dest ++ hex4 f.src ++ hex2 f.typ ++ hex4 (BitVec.ofNat 16 f.payload.length))
    (by simp [frameBytes]) rfl rfl

theorem slice_frameBytes_trailer :
    slice (frameBytes f) (21 + f.payload.length) (25 + f.payload.length) = hex4 (ccitt16 f.payload) := by
  refine slice_of_isPrefix ⟨[], List.append_nil _⟩ ?_ ?_
  · rw [List.length_append]
    rfl
  · rw [length_hex4]
    omega

end

/-- Settles O13: field by field; every digit is rendered by `hexdigit`. -/
theorem encodedFrameLayout : Obligations.EncodedFrameLayout := by
  unfold Obligations.EncodedFrameLayout
  refine fun f => ⟨fun hover => if_neg (by omega), fun hp => ⟨frameBytes f, if_pos hp, length_frameBytes f,
    slice_frameBytes_marker f, slice_frameBytes_dest f, slice_frameBytes_src f, slice_frameBytes_typ f, slice_frameBytes_plen f,
    slice_frameBytes_payload f, slice_frameBytes_trailer f, fun c hc => ?_, fun c hc => ?_⟩⟩
  · rw [slice_frameBytes_header] at hc
    simp only [List.mem_append] at hc
    rcases hc with ((hc | hc) | hc) | hc
    · exact isLowerHexDigit_of_mem_hex4 hc
    · exact isLowerHexDigit_of_mem_hex4 hc
    · exact isLowerHexDigit_of_mem_hex2 hc
    · exact isLowerHexDigit_of_mem_hex4 hc
  · rw [slice_frameBytes_trailer] at hc
    exact isLowerHexDigit_of_mem_hex4 hc

/-- The header of a frame (10_state R23, 43_packet_decoder R163). -/
def Frame.header (f : Frame) : Header := ⟨f.dest, f.src, f.typ, BitVec.ofNat 16 f.payload.length⟩

/-- A slice after the marker, inside a frame that stands first in a buffer. -/
theorem slice_drop_frameBytes_append {f : Frame} (rest : List Byte) {i j : Nat} (hj : 7 + j ≤ 25 + f.payload.length) :
    slice ((frameBytes f ++ rest).drop 7) i j = slice (frameBytes f) (7 + i) (7 + j) := by
  rw [slice_drop, slice_append_left (by rwa [length_frameBytes])]

/-- The header read after the marker is the frame's (43_packet_decoder R163). -/
theorem parseHeader_frameBytes_append (f : Frame) (rest : List Byte) :
    parseHeader ((frameBytes f ++ rest).drop 7) = some f.header := by
  unfold parseHeader
  rw [slice_drop_frameBytes_append rest (by omega), slice_drop_frameBytes_append rest (by omega),
    slice_drop_frameBytes_append rest (by omega), slice_drop_frameBytes_append rest (by omega), slice_frameBytes_dest,
    slice_frameBytes_src, slice_frameBytes_typ, slice_frameBytes_plen]
  simp only [parseHex_hex4, parseHex_hex2, BitVec.ofNat_toNat, BitVec.setWidth_eq, Frame.header]

section
variable {f : Frame} (hp : f.payload.length ≤ maxPayload) (rest : List Byte)
include hp

/-- The length field holds the payload's length. -/
theorem Frame.header_plen_toNat : f.header.plen.toNat = f.payload.length := by
  unfold maxPayload at hp
  rw [Frame.header, BitVec.toNat_ofNat, Nat.mod_eq_of_lt (by omega)]

/-- The packet read after the marker is the frame's, and ends with it (43_packet_decoder R167). -/
theorem parsePacket_frameBytes_append :
    parsePacket ((frameBytes f ++ rest).drop 7) =
      .packet f.header f.payload (some (ccitt16 f.payload)) (18 + f.payload.length) := by
  have hlen : ((frameBytes f ++ rest).drop 7).length = 18 + f.payload.length + rest.length := by
    rw [List.length_drop, List.length_append, length_frameBytes]
    omega
  have htrailer : parseTrailer (hex4 (ccitt16 f.payload)) = some (ccitt16 f.payload) := by
    simp [parseTrailer, parseHex_hex4]
  rw [parsePacket, if_neg (by omega), parseHeader_frameBytes_append f rest]
  dsimp only
  rw [Frame.header_plen_toNat hp, if_neg (by omega), slice_drop_frameBytes_append rest (by omega),
    slice_drop_frameBytes_append rest (by omega), ← Nat.add_assoc, ← Nat.add_assoc, slice_frameBytes_payload,
    slice_frameBytes_trailer, htrailer]

/-- A frame that stands first in a buffer is decoded, whatever follows it (41_encoder R125, 45_stream_decode R198). -/
theorem decodeStream_frameBytes_append :
    decodeStream (frameBytes f ++ rest) = .frame 0 f.header f.payload (ccitt16 f.payload) (25 + f.payload.length) := by
  have hmarker : findMarker (frameBytes f ++ rest) = some 0 := by
    simp only [frameBytes, List.append_assoc]
    exact findMarker_marker_append _
  unfold decodeStream
  rw [hmarker]
  dsimp only
  rw [Nat.zero_add, parsePacket_frameBytes_append hp rest]
  dsimp only
  rw [if_pos rfl, show 7 + (18 + f.payload.length) = 25 + f.payload.length by omega]

end

end Sys2Proof.Machine
end

section
/-! The scanner: where markers stand, and which one is found (42_scanner R140, R144, 30_encoding R85). -/

namespace Sys2Proof.Machine

/-- A marker stands at `m` when the bytes from `m` on begin with it. -/
theorem markerAt_iff {buf : List Byte} {m : Nat} : MarkerAt buf m ↔ (buf.drop m).take 7 = marker := by
  unfold MarkerAt slice
  rw [Nat.add_sub_cancel_left]
  refine ⟨fun h => h.2, fun h => ⟨?_, h⟩⟩
  have hlen := congrArg List.length h
  rw [List.length_take, List.length_drop, show marker.length = 7 from rfl] at hlen
  omega

/-- A marker of what is left after dropping is a marker of the buffer. -/
theorem markerAt_drop {buf : List Byte} {k j : Nat} : MarkerAt (buf.drop k) j ↔ MarkerAt buf (k + j) := by
  rw [markerAt_iff, markerAt_iff, List.drop_drop]

/-- The marker stands first when a search would see it at once. -/
theorem firstMarkerAt_zero {buf : List Byte} : FirstMarkerAt buf 0 ↔ buf.take 7 = marker := by
  simp [FirstMarkerAt, markerAt_iff]

/-- A later marker is the first one when none stands at the first byte and it is the first one of the rest. -/
theorem firstMarkerAt_succ {b : Byte} {rest : List Byte} {m : Nat} :
    FirstMarkerAt (b :: rest) (m + 1) ↔ (b :: rest).take 7 ≠ marker ∧ FirstMarkerAt rest m := by
  simp only [FirstMarkerAt, Nat.forall_lt_succ_left, markerAt_iff, List.drop_succ_cons, List.drop_zero]
  exact and_left_comm

/-- The search finds the first marker (42_scanner R140). -/
theorem findMarker_eq_some_iff {buf : List Byte} {m : Nat} : findMarker buf = some m ↔ FirstMarkerAt buf m := by
  induction buf generalizing m with
  | nil => simp [findMarker, findMarkerFrom, FirstMarkerAt, MarkerAt]
  | cons b rest ih =>
    rw [findMarker_cons]
    cases m with
    | zero =>
      rw [firstMarkerAt_zero]
      split <;> simp [-List.take_succ_cons, *]
    | succ m =>
      rw [firstMarkerAt_succ, ← ih]
      split <;> simp [-List.take_succ_cons, *, Nat.add_comm 1]

/-- No two markers overlap: no proper end of the marker is a beginning of it (30_encoding R85). -/
theorem marker_drop_ne_take : ∀ j < 7, 0 < j → marker.drop j ≠ marker.take (7 - j) := by decide

/-- Markers stand at least 7 bytes apart (30_encoding R85). -/
theorem markerAt_apart {buf : List Byte} {m k : Nat} (hm : MarkerAt buf m) (hk : MarkerAt buf k) (hlt : m < k) : m + 7 ≤ k := by
  obtain ⟨j, rfl⟩ := Nat.exists_eq_add_of_lt hlt
  by_contra hnear
  rw [markerAt_iff] at hm hk
  refine marker_drop_ne_take (j + 1) (by omega) (by omega) ?_
  calc marker.drop (j + 1)
      = ((buf.drop (m + j + 1)).take 7).take (7 - (j + 1)) := by
        rw [← hm, List.drop_take, List.drop_drop, List.take_take, Nat.min_eq_left (Nat.sub_le _ _), Nat.add_assoc]
    _ = marker.take (7 - (j + 1)) := by rw [hk]

/-- Settles O9: the offsets of `buf.drop k` are those of `buf` from `k` on, and between a marker and its end no other begins. -/
theorem scanningOnAfterAMarkerLosesNone : Obligations.ScanningOnAfterAMarkerLosesNone := by
  unfold Obligations.ScanningOnAfterAMarkerLosesNone
  intro buf m h
  obtain ⟨hm, hfirst⟩ := findMarker_eq_some_iff.mp h
  refine ⟨fun k hk => markerAt_apart hm hk, fun j => ?_, fun k hk => ?_⟩
  · rw [findMarker_eq_some_iff, FirstMarkerAt, markerAt_drop]
    refine and_congr_right fun _ => ⟨fun hnone k hlo hhi hk => ?_, fun hnone k hk => ?_⟩
    · obtain ⟨i, rfl⟩ := Nat.exists_eq_add_of_le (markerAt_apart hm hk hlo)
      exact hnone i (by omega) (markerAt_drop.mpr hk)
    · rw [markerAt_drop]
      exact hnone (m + 7 + k) (by omega) (by omega)
  · rw [findMarker_eq_some_iff, FirstMarkerAt, markerAt_drop, Nat.add_sub_cancel' hk]
    refine ⟨hm, fun i hi => ?_⟩
    rw [markerAt_drop]
    exact hfirst (k + i) (by omega)

end Sys2Proof.Machine
end

section
/-! The two encodings and their decoder: command words (30_encoding R70, R72, R90) and wire frames (R74). -/

namespace Sys2Proof.Machine

/-- A command word is CMD[31:3] followed by CMD[2:0]. -/
theorem exists_word_eq_append (w : Word) : ∃ (high : BitVec 29) (op : BitVec 3), w = high ++ op :=
  ⟨w.extractLsb' 3 29, w.extractLsb' 0 3, (BitVec.extractLsb'_append_extractLsb' (len := 3) (w := 29)).symm⟩

/-- A word with a bit of CMD[31:3] set is reserved, whatever its opcode bits (30_encoding R90). -/
theorem decodeCommand_append_of_ne {high : BitVec 29} (h : high ≠ 0#29) (op : BitVec 3) :
    decodeCommand (high ++ op) = .reservedHigh high op := by
  unfold decodeCommand
  rw [BitVec.extractLsb'_append_eq_left, BitVec.extractLsb'_append_eq_right, if_pos h]

/-- The eight words without such a bit (30_encoding R72) encode back to themselves. -/
theorem encode_decodeCommand_opcode : ∀ op : BitVec 3, (decodeCommand (0#29 ++ op)).wellFormed = true ∧
    Sys2Proof.encode (decodeCommand (0#29 ++ op)) = some (.command (0#29 ++ op)) := by decide

/-- Settles O4: a word with a bit of CMD[31:3] set keeps all its bits, and the other eight are the table. -/
theorem everyCommandWordIsOneInstruction : Obligations.EveryCommandWordIsOneInstruction := by
  unfold Obligations.EveryCommandWordIsOneInstruction
  intro w
  obtain ⟨high, op, rfl⟩ := exists_word_eq_append w
  by_cases h : high = 0#29
  · rw [h]
    exact encode_decodeCommand_opcode op
  · rw [decodeCommand_append_of_ne h]
    exact ⟨bne_iff_ne.mpr h, if_neg h⟩

/-- The bytes of a frame are one whole frame. -/
theorem decodeWire_frameBytes {f : Frame} (hp : f.payload.length ≤ maxPayload) :
    decodeWire (frameBytes f) = .instr (.wireFrame f.dest f.src f.typ f.payload) := by
  have hstream := decodeStream_frameBytes_append hp []
  rw [List.append_nil] at hstream
  simp [decodeWire, hstream, Frame.header]

/-- Settles O3: the words of the table by evaluation, the reserved words by their two fields, frames by `decodeWire_frameBytes`. -/
theorem decodeInvertsEncode : Obligations.DecodeInvertsEncode := by
  unfold Obligations.DecodeInvertsEncode
  intro i
  cases i with
  | reservedHigh high op =>
    refine ⟨fun h => ?_, fun h => if_pos (by simpa [Instr.wellFormed] using h)⟩
    have hne : high ≠ 0#29 := bne_iff_ne.mp h
    exact ⟨_, if_neg hne, congrArg Decoded.instr (decodeCommand_append_of_ne hne op)⟩
  | wireFrame dest src typ payload =>
    refine ⟨fun h => ?_, fun h => ?_⟩
    · have hp : payload.length ≤ maxPayload := of_decide_eq_true h
      have henc : encodeFrame ⟨dest, src, typ, payload⟩ = some (frameBytes ⟨dest, src, typ, payload⟩) :=
        encodeFrame_eq_some_iff.mpr ⟨hp, rfl⟩
      exact ⟨.wire (frameBytes ⟨dest, src, typ, payload⟩), by simp [Sys2Proof.encode, henc], decodeWire_frameBytes hp⟩
    · have hover : ¬payload.length ≤ maxPayload := of_decide_eq_false h
      simp [Sys2Proof.encode, encodeFrame, hover]
  | _ => exact ⟨fun _ => ⟨_, rfl, by decide⟩, nofun⟩

/-- Settles O5: the decoder evaluated on the words of the table and on the 30 bytes of E1. -/
theorem tableWordsDecodeAsWritten : Obligations.TableWordsDecodeAsWritten := by
  unfold Obligations.TableWordsDecodeAsWritten
  refine ⟨?_, ?_, ?_, ?_, ?_, ?_, ?_, ?_, ?_, ?_⟩
  case refine_10 => decide +kernel
  all_goals decide

/-- The reserved words are those that decode to no command (30_encoding R72, R90). -/
theorem reservedWord_eq_not_isCommand (w : Word) : reservedWord w = !isCommand (decodeCommand w) := by
  obtain ⟨high, op, rfl⟩ := exists_word_eq_append w
  by_cases h : high = 0#29
  · rw [h]
    revert op
    decide
  · rw [decodeCommand_append_of_ne h, reservedWord, BitVec.extractLsb'_append_eq_left]
    simp [h, isCommand]

/-- The reserved words in numbers: CMD[2:0] = 0, or a bit of CMD[31:3] set (30_encoding R90). -/
theorem reservedWord_iff (w : Word) : reservedWord w = true ↔ w.toNat % 8 = 0 ∨ w.toNat / 8 ≠ 0 := by
  have hlt := w.isLt
  simp only [reservedWord, decide_eq_true_eq, ne_eq, ← BitVec.toNat_inj, BitVec.extractLsb'_toNat, Nat.shiftRight_eq_div_pow,
    BitVec.toNat_ofNat]
  omega

/-- Settles O32: whatever starts it, a reserved word clears the results and finishes with ERR_CMD. -/
theorem reservedWordsFinishWithErrCmd : Obligations.ReservedWordsFinishWithErrCmd := by
  unfold Obligations.ReservedWordsFinishWithErrCmd
  refine ⟨fun w => ⟨?_, reservedWord_eq_not_isCommand w⟩, fun s w hi hw => ?_, fun s i hr => ?_⟩
  · rw [← reservedWord_iff, reservedWord_eq_not_isCommand, Bool.not_eq_true']
  · have hwrite : writeReg .cmd w s = finish .errCmd (startCommand w s) := writeCmd_reserved (busy_idle s hi) hw
    rw [hwrite]
    exact ⟨⟨rfl, rfl, rfl⟩, rfl, rfl, fun _ => rfl⟩
  · have hexec : ∀ u, exec i u = .next (finish .errCmd (beginCommand u)) := by
      rcases hr with rfl | ⟨high, op, rfl⟩ <;> exact fun _ => rfl
    exact ⟨_, hexec s, ⟨rfl, rfl, rfl⟩, rfl, rfl, ⟨rfl, rfl, rfl, rfl, rfl⟩, fun _ => rfl, fun m => hexec (setMem m s)⟩

/-- A placed command word is a running command whose host waits (log 16). -/
theorem withFetchWord_command {nbits : Nat} (h : nbits ≤ 32) (w : Nat) (s : State) :
    s.withFetchWord nbits w =
      { startCommand (BitVec.ofNat 32 w) s with program := .wait :: s.program } := by
  simp [State.withFetchWord, tableEncoded, h, placeInstruction]

/-- Settles O55: the block moves, for its host waits, and every command word's execution finishes. -/
theorem placedWordRunsNext : Obligations.PlacedWordRunsNext := by
  unfold Obligations.PlacedWordRunsNext
  intro s nbits w hbits
  have hrun : step (s.withFetchWord nbits w) = exec (decodeCommand (BitVec.ofNat 32 w)) (s.withFetchWord nbits w) := by
    rw [withFetchWord_command hbits, step, fetch_busy_waiting rfl (.inr rfl)]
    rfl
  obtain ⟨t, ht⟩ := exec_decodeCommand_next (BitVec.ofNat 32 w) (s.withFetchWord nbits w)
  obtain ⟨c, b, r, m, rfl, -⟩ := exec_finishes (decodeCommand_ne_wireFrame _) ht
  exact ⟨_, by simp [decodeTableWord, tableEncoded, hbits, Sys2Proof.decode], hrun, _, hrun.trans ht, rfl, rfl⟩

end Sys2Proof.Machine
end

section
/-! DRAIN of a buffer that holds frames one after the other (30_encoding R92, 45_stream_decode R198). -/

namespace Sys2Proof.Machine

/-- While IDLE the host sets OP_BASE and OP_LEN (10_state R25, R28). -/
theorem pointAt_idle {s : State} (hi : s.seq = .idle) (base len : Nat) :
    pointAt base len s = { s with op := { s.op with base := BitVec.ofNat 32 base, len := BitVec.ofNat 32 len } } := by
  rw [pointAt, writeReg_not_cmd (by decide), writeReg_not_cmd (by decide), if_neg (by simp [hi]), if_neg (by simp [hi])]
  rfl

/-- A range inside memory passes the range check when it is pointed at (20_memory R55). -/
theorem pointAt_fits {s : State} {base len : Nat} (hi : s.seq = .idle) (hfit : base + len ≤ s.memSize) (hlen : len < 2 ^ 32) :
    (pointAt base len s).op.base.toNat + (pointAt base len s).op.len.toNat ≤ (pointAt base len s).memSize := by
  have hbase := Nat.mod_le base (2 ^ 32)
  simp only [pointAt_idle hi, BitVec.toNat_ofNat, Nat.mod_eq_of_lt hlen]
  omega

/-- The bytes of a range pointed at are the input; an empty range may begin at 2^32, where OP_BASE wraps. -/
theorem inputBytes_pointAt {s : State} {base len : Nat} (hi : s.seq = .idle) (hsize : s.memSize ≤ 2 ^ 32)
    (hfit : base + len ≤ s.memSize) (hlen : len < 2 ^ 32) : inputBytes (pointAt base len s) = s.mem.readBytes base len := by
  simp only [inputBytes, pointAt_idle hi, BitVec.toNat_ofNat, Nat.mod_eq_of_lt hlen]
  cases len with
  | zero => rfl
  | succ n => rw [Nat.mod_eq_of_lt (by omega)]

/-- DECODE of an input that decodes to a frame (45_stream_decode R192). -/
theorem exec_decode_frame {s : State} {m next : Nat} {h : Header} {p : List Byte} {computed : Half}
    (hfit : s.op.base.toNat + s.op.len.toNat ≤ s.memSize) (hd : decodeStream (inputBytes s) = .frame m h p computed next) :
    exec .decode s = .next (finish .ok (setRes
      { Results.zero.ofStream (.frame m h p computed next) with next := BitVec.ofNat 32 next } (beginCommand s))) := by
  rw [exec, execDecode, withInput_fits (by simpa using hfit), inputBytes_beginCommand, hd]
  rfl

/-- DECODE of an input without a marker (45_stream_decode R192). -/
theorem exec_decode_waitMarker {s : State} (hfit : s.op.base.toNat + s.op.len.toNat ≤ s.memSize)
    (hd : decodeStream (inputBytes s) = .waitMarker) : exec .decode s = .next (finish .waitMarker (beginCommand s)) := by
  rw [exec, execDecode, withInput_fits (by simpa using hfit), inputBytes_beginCommand, hd]
  rfl

/-- DRAIN hands on the frame of a DECODE that is OK, and goes on behind it (30_encoding R92). -/
theorem drain_of_ok {fuel base len : Nat} {s t : State} (hx : exec .decode (pointAt base len s) = .next t) (hc : t.code = .ok) :
    drain (fuel + 1) base len s =
      { drain fuel (base + t.res.next.toNat) (len - t.res.next.toNat) t with
        delivered := .frame (deliveredFrame t) ::
          (drain fuel (base + t.res.next.toNat) (len - t.res.next.toNat) t).delivered } := by
  rw [exec] at hx
  simp [drain, hx, hc]

/-- DRAIN ends when a DECODE finds no marker (30_encoding R92). -/
theorem drain_of_waitMarker {fuel base len : Nat} {s t : State} (hx : exec .decode (pointAt base len s) = .next t)
    (hc : t.code = .waitMarker) : drain (fuel + 1) base len s = ⟨[], .waiting base len, t⟩ := by
  rw [exec] at hx
  simp [drain, hx, hc]

/-- DRAIN of a range that begins with a frame's encoding delivers the frame and goes on behind it, from a block that is idle
again and has kept its memory. -/
theorem drain_frame_first {s : State} {base fuel : Nat} {f : Frame} {rest : List Byte} (hi : s.seq = .idle)
    (hsize : s.memSize ≤ 2 ^ 32) (hp : f.payload.length ≤ maxPayload) (hlen : (frameBytes f ++ rest).length < 2 ^ 32)
    (hfit : base + (frameBytes f ++ rest).length ≤ s.memSize)
    (hmem : s.mem.readBytes base (frameBytes f ++ rest).length = frameBytes f ++ rest) :
    ∃ t : State, t.seq = .idle ∧ t.memSize = s.memSize ∧ t.mem = s.mem ∧
      drain (fuel + 1) base (frameBytes f ++ rest).length s =
        { drain fuel (base + (frameBytes f).length) rest.length t with
          delivered := .frame f :: (drain fuel (base + (frameBytes f).length) rest.length t).delivered } := by
  have hin := inputBytes_pointAt hi hsize hfit hlen
  have hfits := pointAt_fits hi hfit hlen
  have hd := decodeStream_frameBytes_append hp rest
  rw [← hmem, ← hin] at hd
  have hx := exec_decode_frame hfits hd
  have hdelivered := deliveredFrameIsTheDecodedOne _ _ _ _ _ _ _ hfits hd hx
  have hdrain := drain_of_ok (fuel := fuel) hx rfl
  have hnext : (BitVec.ofNat 32 (25 + f.payload.length)).toNat = (frameBytes f).length := by
    rw [List.length_append, length_frameBytes] at hlen
    rw [BitVec.toNat_ofNat, length_frameBytes, Nat.mod_eq_of_lt (by omega)]
  rw [hdelivered] at hdrain
  simp only [finish_res, setRes_res, hnext] at hdrain
  rw [List.length_append, Nat.add_sub_cancel_left] at hdrain
  rw [List.length_append]
  refine ⟨_, ?_, ?_, ?_, hdrain⟩
  · rfl
  · simp [pointAt_idle hi]
  · simp [pointAt_idle hi]

/-- DRAIN of an empty range keeps it for later. -/
theorem drain_empty {s : State} {base : Nat} (hi : s.seq = .idle) (hsize : s.memSize ≤ 2 ^ 32) (hfit : base ≤ s.memSize)
    (fuel : Nat) : ∃ t, drain (fuel + 1) base 0 s = ⟨[], .waiting base 0, t⟩ := by
  have hd : decodeStream (inputBytes (pointAt base 0 s)) = .waitMarker := by
    rw [inputBytes_pointAt hi hsize hfit (by decide)]
    rfl
  exact ⟨_, drain_of_waitMarker (exec_decode_waitMarker (pointAt_fits hi hfit (by decide)) hd) rfl⟩

/-- Settles O44: by induction on the list of frames. -/
theorem drainDeliversEveryFrameInOrder : Obligations.DrainDeliversEveryFrameInOrder := by
  unfold Obligations.DrainDeliversEveryFrameInOrder
  intro s base fuel frames
  induction frames generalizing s base fuel with
  | nil =>
    intro hi hsize _ _ hfit _ hfuel
    obtain ⟨fuel, rfl⟩ := Nat.exists_eq_succ_of_ne_zero (Nat.ne_zero_of_lt hfuel)
    obtain ⟨t, ht⟩ := drain_empty hi hsize hfit fuel
    exact ⟨congrArg DrainRun.delivered ht, congrArg DrainRun.ended ht⟩
  | cons f frames ih =>
    intro hi hsize hp hlen hfit hmem hfuel
    obtain ⟨fuel, rfl⟩ := Nat.exists_eq_succ_of_ne_zero (Nat.ne_zero_of_lt hfuel)
    rw [List.flatMap_cons] at *
    obtain ⟨t, hti, htsize, htmem, hdrain⟩ := drain_frame_first (fuel := fuel) hi hsize (hp f (by simp)) hlen hfit hmem
    have hrest : s.mem.readBytes (base + (frameBytes f).length) (frames.flatMap frameBytes).length = frames.flatMap frameBytes := by
      rw [List.length_append, Memory.readBytes_add] at hmem
      exact (List.append_inj hmem (Memory.length_readBytes ..)).2
    rw [List.length_append] at hlen hfit
    obtain ⟨hdelivered, hended⟩ := ih t (base + (frameBytes f).length) fuel hti (by omega)
      (fun g hg => hp g (List.mem_cons_of_mem _ hg)) (by omega) (by omega) (by rwa [htmem]) (by simpa using hfuel)
    rw [hdrain]
    refine ⟨congrArg _ hdelivered, ?_⟩
    rw [List.length_append, ← Nat.add_assoc]
    exact hended

end Sys2Proof.Machine
end

section
/-! The two checksum generators and their commands (40_crc). -/

namespace Sys2Proof.Machine

/-! ## The generators -/

/-- Settles O10: both are left folds over the bytes. -/
theorem checksumsContinueFromTheRegister : Obligations.ChecksumsContinueFromTheRegister := by
  unfold Obligations.ChecksumsContinueFromTheRegister
  exact fun s t => ⟨List.foldl_append, List.foldl_append⟩

/-- Settles O12: both generators evaluated on at most nine bytes. -/
theorem tracedChecksumValues : Obligations.TracedChecksumValues := by
  unfold Obligations.TracedChecksumValues
  decide +kernel

/-- A bit equal to the register's top bit cancels the polynomial (40_crc R100). -/
theorem ccittBit_topBit (c : Half) : ccittBit c (c.getLsbD 15) = c <<< 1 := by
  simp [ccittBit]

/-- Fed its own top `n` bits, the CCITT register only shifts. -/
theorem foldl_ccittBit_topBits {b : Byte} {n : Nat} (hn : n ≤ 8) {c : Half}
    (h : ∀ i < n, b.getLsbD i = c.getLsbD (16 - n + i)) :
    (List.range n).reverse.foldl (fun c k => ccittBit c (b.getLsbD k)) c = c <<< n := by
  induction n generalizing c with
  | zero => simp
  | succ n ih =>
    have htop : b.getLsbD n = c.getLsbD 15 := by
      rw [h n (by omega)]
      congr 1
      omega
    have hrest : ∀ i < n, b.getLsbD i = (c <<< 1).getLsbD (16 - n + i) := by
      intro i hi
      rw [h i (by omega), BitVec.getLsbD_shiftLeft, decide_eq_true (by omega), decide_eq_false (by omega)]
      simp only [Bool.true_and, Bool.not_false]
      congr 1
      omega
    rw [List.range_succ, List.reverse_append, List.reverse_singleton, List.singleton_append, List.foldl_cons, htop,
      ccittBit_topBit, ih (by omega) hrest, ← BitVec.shiftLeft_add, Nat.add_comm]

/-- Fed its own high byte, the CCITT register shifts by a byte. -/
theorem ccittByte_highByte (c : Half) : ccittByte c (c.extractLsb' 8 8) = c <<< 8 :=
  foldl_ccittBit_topBits (n := 8) (by omega) fun i hi => by simp [hi]

/-- A Modbus register whose low bits are 0 only shifts while they leave it (40_crc R101). -/
theorem foldl_modbusShift_zeros {α : Type} {l : List α} {c : Half} (h : ∀ i < l.length, c.getLsbD i = false) :
    l.foldl (fun c _ => modbusShift c) c = c >>> l.length := by
  induction l generalizing c with
  | nil => simp
  | cons x l ih =>
    have hshift : modbusShift c = c >>> 1 := by simp only [modbusShift, h 0 (by simp), Bool.false_eq_true, if_false]
    have hrest : ∀ i < l.length, (c >>> 1).getLsbD i = false := fun i hi => by
      rw [BitVec.getLsbD_ushiftRight]
      exact h (1 + i) (by simp; omega)
    rw [List.foldl_cons, hshift, ih hrest, ← BitVec.shiftRight_add, List.length_cons, Nat.add_comm]

/-- Fed its own low byte, the Modbus register shifts by a byte. -/
theorem modbusByte_lowByte (c : Half) : modbusByte c (c.extractLsb' 0 8) = c >>> 8 := by
  have hlow : ∀ i < 8, (c ^^^ (c.extractLsb' 0 8).setWidth 16).getLsbD i = false := fun i hi => by
    simp [hi, show i < 16 by omega]
  have hshifts := foldl_modbusShift_zeros (l := [1, 2, 3, 4, 5, 6, 7, 8]) hlow
  have hhigh : (c ^^^ (c.extractLsb' 0 8).setWidth 16) >>> 8 = c >>> 8 := by
    ext i hi
    simp
  exact hshifts.trans hhigh

/-- Settles O11: each appended byte is the one the register would shift out, so the register shifts 16 times. -/
theorem checksumResidueIsZero : Obligations.ChecksumResidueIsZero := by
  unfold Obligations.ChecksumResidueIsZero
  intro s
  obtain ⟨hccitt, -⟩ := checksumsContinueFromTheRegister s [(ccitt16 s).extractLsb' 8 8, (ccitt16 s).extractLsb' 0 8]
  obtain ⟨-, hmodbus⟩ :=
    checksumsContinueFromTheRegister s [(crcModbus s).extractLsb' 0 8, (crcModbus s).extractLsb' 8 8]
  have hlow (c : Half) : c.extractLsb' 0 8 = (c <<< 8).extractLsb' 8 8 := by ext i hi; simp; omega
  have hhigh (c : Half) : c.extractLsb' 8 8 = (c >>> 8).extractLsb' 0 8 := by ext i hi; simp
  constructor
  · rw [hccitt, List.foldl_cons, ccittByte_highByte, List.foldl_cons, hlow, ccittByte_highByte, List.foldl_nil,
      ← BitVec.shiftLeft_add, BitVec.shiftLeft_eq_zero (by omega)]
  · rw [hmodbus, List.foldl_cons, modbusByte_lowByte, List.foldl_cons, hhigh, modbusByte_lowByte, List.foldl_nil,
      ← BitVec.shiftRight_add, BitVec.ushiftRight_eq_zero (by omega)]

/-! ## The commands -/

/-- What both commands do behind the range check: one generator's value of the input goes into R_CRC_CALC (40_crc R102, R103). -/
def recordChecksum (crc : List Byte → Half) (t : State) (bytes : List Byte) : State :=
  finish .ok (setRes { t.res with crcCalc := crc bytes } t)

/-- CRC.CCITT is the range check and `recordChecksum` (40_crc R102). -/
theorem execCrcCcitt_eq (s : State) : execCrcCcitt s = .next (withInput (beginCommand s) (recordChecksum ccitt16)) := rfl

/-- CRC.MODBUS is the range check and `recordChecksum` (40_crc R103). -/
theorem execCrcModbus_eq (s : State) : execCrcModbus s = .next (withInput (beginCommand s) (recordChecksum crcModbus)) := rfl

/-- Either command's results and frame, inside memory and outside it. -/
theorem withInput_recordChecksum {crc : List Byte → Half} {s t : State}
    (ht : withInput (beginCommand s) (recordChecksum crc) = t) :
    t.declbad = false ∧ OperandsAndHostKept s t ∧ SameMemory s t ∧
      (s.op.base.toNat + s.op.len.toNat ≤ s.memSize →
        Finished .ok t ∧ t.res = { Results.zero with crcCalc := crc (inputBytes s) }) ∧
      (s.memSize < s.op.base.toNat + s.op.len.toNat → Finished .errOperand t ∧ t.res = Results.zero) := by
  rcases Nat.lt_or_ge s.memSize (s.op.base.toNat + s.op.len.toNat) with hout | hfit
  · rw [withInput_fails (by simpa using hout)] at ht
    subst ht
    exact ⟨rfl, operandsAndHostKept_finished .., fun _ => rfl, fun hfit => absurd hout hfit.not_gt,
      fun _ => ⟨⟨rfl, rfl, rfl⟩, rfl⟩⟩
  · rw [withInput_fits (by simpa using hfit)] at ht
    subst ht
    exact ⟨rfl, operandsAndHostKept_finished .., fun _ => rfl, fun _ => ⟨⟨rfl, rfl, rfl⟩, rfl⟩,
      fun hout => absurd hout hfit.not_gt⟩

/-- Settles O25: the shared case split on the range check, for `ccitt16`. -/
theorem crcCcittCommandResult : Obligations.CrcCcittCommandResult := by
  unfold Obligations.CrcCcittCommandResult
  exact ⟨by decide, fun s => ⟨_, execCrcCcitt_eq s, withInput_recordChecksum rfl⟩⟩

/-- Settles O26: the shared case split on the range check, for `crc_modbus`. -/
theorem crcModbusCommandResult : Obligations.CrcModbusCommandResult := by
  unfold Obligations.CrcModbusCommandResult
  exact ⟨by decide, fun s => ⟨_, execCrcModbus_eq s, withInput_recordChecksum rfl⟩⟩

end Sys2Proof.Machine
end

section
/-! The encoder: the round trip of frames, ENCODE, and the frame that finds no room (41_encoder R121 to R125, 70_reset R270). -/

namespace Sys2Proof.Machine

/-! ## Frames and their bytes -/

/-- Settles O15: the decoder reads the frame back from its bytes with nothing after them. -/
theorem everyFrameRoundTrips : Obligations.EveryFrameRoundTrips := by
  unfold Obligations.EveryFrameRoundTrips
  intro f hp
  have hstream := decodeStream_frameBytes_append hp []
  rw [List.append_nil] at hstream
  exact ⟨frameBytes f, encodeFrame_eq_some_iff.mpr ⟨hp, rfl⟩, hstream, (length_frameBytes f).symm⟩

/-- Settles O14: the decoder gives each frame back from its bytes, so equal bytes come from equal frames. -/
theorem differentFramesEncodeDifferently : Obligations.DifferentFramesEncodeDifferently := by
  unfold Obligations.DifferentFramesEncodeDifferently
  intro f g b hf hg
  obtain ⟨hpf, hbf⟩ := encodeFrame_eq_some_iff.mp hf
  obtain ⟨hpg, hbg⟩ := encodeFrame_eq_some_iff.mp hg
  have hdf := decodeWire_frameBytes hpf
  have hdg := decodeWire_frameBytes hpg
  rw [hbf] at hdf
  rw [hbg, hdf] at hdg
  cases f
  cases g
  cases hdg
  rfl

/-! ## ENCODE (R122) -/

/-- R_OUTLEN's value is 25 + OP_LEN as words. -/
theorem ofNat_outputLength (s : State) : BitVec.ofNat 32 (outputLength s) = 25#32 + s.op.len := by
  rw [outputLength, BitVec.ofNat_add, BitVec.ofNat_toNat, BitVec.setWidth_eq]

/-- An ENCODE that passes its checks leaves the encoding of the operands' frame in its output range. -/
theorem encodeFrame_operandFrame_stored {s : State} (hwf : s.mem.wf = true) (hc : encodeCode s = .ok)
    (hlen : s.op.len.toNat ≤ 0xFFFF) :
    encodeFrame (operandFrame s) = some ((s.mem.writeBytes s.op.outBase.toNat (encodeOutput s)).readBytes
      s.op.outBase.toNat (25 + s.op.len.toNat)) := by
  have hp : (operandFrame s).payload.length = s.op.len.toNat := length_inputBytes s
  rw [encodeOutput_ok hc hlen, ← hp, ← length_frameBytes, Memory.readBytes_writeBytes hwf]
  exact encodeFrame_eq_some_iff.mpr ⟨by rwa [hp], rfl⟩

/-- A failed check ends an ENCODE with its code, the results cleared. -/
theorem exec_encode_of_code_ne_ok {s : State} (hc : encodeCode s ≠ .ok) :
    exec .encode s = .next (finish (encodeCode s) (beginCommand s)) := by
  rcases execEncode_cases s with ⟨-, he⟩ | ⟨hok, -⟩
  · exact he
  · exact absurd hok hc

/-- Passed checks: the output bytes are written, and R_OUTLEN and R_CRC_CALC. -/
theorem exec_encode_of_code_ok {s : State} (hc : encodeCode s = .ok) :
    exec .encode s = .next (finish .ok
      (setRes { Results.zero with outlen := 25#32 + s.op.len, crcCalc := ccitt16 (inputBytes s) }
        (setMem (s.mem.writeBytes s.op.outBase.toNat (encodeOutput s)) (beginCommand s)))) := by
  rcases execEncode_cases s with ⟨hne, -⟩ | ⟨-, he⟩
  · exact absurd hc hne
  · rw [← ofNat_outputLength]
    exact he

/-- Settles O27: one case for each code of `encodeCode_cases`. -/
theorem encodeCommandResult : Obligations.EncodeCommandResult := by
  unfold Obligations.EncodeCommandResult
  refine ⟨by decide, fun s hwf => ?_⟩
  rcases encodeCode_cases s with ⟨hc, hover⟩ | ⟨hc, hlen, hranges⟩ | ⟨hc, hlen, hranges⟩
  · refine ⟨_, exec_encode_of_code_ne_ok (by simp [hc]), rfl, ⟨rfl, rfl, rfl, rfl, rfl⟩, fun _ => ?_,
      fun hlen => absurd hover hlen.not_gt, fun hlen => absurd hover hlen.not_gt⟩
    exact ⟨⟨hc, rfl, rfl⟩, rfl, fun _ => rfl⟩
  · refine ⟨_, exec_encode_of_code_ne_ok (by simp [hc]), rfl, ⟨rfl, rfl, rfl, rfl, rfl⟩,
      fun hover => absurd hover hlen.not_gt, fun _ _ => ?_, fun _ hok => absurd hok hranges⟩
    exact ⟨⟨hc, rfl, rfl⟩, rfl, fun _ => rfl⟩
  · refine ⟨_, exec_encode_of_code_ok hc, rfl, ⟨rfl, rfl, rfl, rfl, rfl⟩,
      fun hover => absurd hover hlen.not_gt, fun _ hnot => absurd hranges hnot, fun _ _ => ?_⟩
    have houtput : (encodeOutput s).length ≤ 25 + s.op.len.toNat := length_encodeOutput_le s
    exact ⟨⟨rfl, rfl, rfl⟩, rfl, encodeFrame_operandFrame_stored hwf hc hlen,
      fun _ hx => Memory.read_writeBytes_outside (by omega)⟩

/-! ## ENCODE, then DECODE (R125) -/

/-- DECODE of a range that holds exactly one frame's encoding delivers the frame and leaves an empty remainder. -/
theorem exec_decode_pointAt_encoded {s : State} {base : Nat} {n : Word} {f : Frame} (hi : s.seq = .idle)
    (hsize : s.memSize ≤ 2 ^ 32) (hfit : base + n.toNat ≤ s.memSize)
    (hmem : encodeFrame f = some (s.mem.readBytes base n.toNat)) :
    ∃ u, exec .decode (pointAt base n.toNat s) = .next u ∧ u.code = .ok ∧ deliveredFrame u = f ∧ u.res.mpos = 0#32 ∧
      u.res.next = n := by
  obtain ⟨hp, hbytes⟩ := encodeFrame_eq_some_iff.mp hmem
  have hlength : 25 + f.payload.length = n.toNat := by rw [← length_frameBytes, hbytes, Memory.length_readBytes]
  have hfits := pointAt_fits hi hfit n.isLt
  have hd := decodeStream_frameBytes_append hp []
  rw [List.append_nil, hbytes, ← inputBytes_pointAt hi hsize hfit n.isLt, hlength] at hd
  have hx := exec_decode_frame hfits hd
  exact ⟨_, hx, rfl, deliveredFrameIsTheDecodedOne _ _ _ _ _ _ _ hfits hd hx, rfl, by simp⟩

/-- Settles O43: of the cases of `encodeCommandResult` only the last is OK; there the encoding stands in the output range,
R_OUTLEN is its length, and DECODE reads it back. -/
theorem encodeThenDecodeDeliversTheFrame : Obligations.EncodeThenDecodeDeliversTheFrame := by
  unfold Obligations.EncodeThenDecodeDeliversTheFrame
  intro s t hinv hx hok
  obtain ⟨-, hencode⟩ := encodeCommandResult
  obtain ⟨t', hx', -, ⟨hop, hsize, -⟩, hoversize, hoperand, hpassed⟩ := hencode s hinv.mem_wf
  cases hx'.symm.trans hx
  have hlen : s.op.len.toNat ≤ 0xFFFF := by
    by_contra hover
    obtain ⟨⟨hcode, -⟩, -⟩ := hoversize (by omega)
    cases hok.symm.trans hcode
  have hranges : EncodeRangesOk s := by
    by_contra hnot
    obtain ⟨⟨hcode, -⟩, -⟩ := hoperand hlen hnot
    cases hok.symm.trans hcode
  obtain ⟨⟨-, -, hidle⟩, hres, hstored, -⟩ := hpassed hlen hranges
  obtain ⟨-, hfit, -⟩ := hranges
  have houtlen : t.res.outlen.toNat = 25 + s.op.len.toNat := by
    simp only [hres]
    bv_omega
  rw [Nat.add_assoc, ← houtlen, ← hsize] at hfit
  rw [← houtlen] at hstored
  exact ⟨by rw [sentBytes, hop, hstored],
    exec_decode_pointAt_encoded hidle (by rw [hsize]; exact hinv.memSize_le) hfit hstored⟩

/-! ## The frame that finds no room (R270, log 11) -/

/-- Bytes that do not fit behind the decode buffer, or whose buffer OP_LEN cannot name, are not appended. -/
theorem receive_no_room {bytes : List Byte} {s : State}
    (h : s.memSize < s.op.base.toNat + s.op.len.toNat + bytes.length ∨ 2 ^ 32 ≤ s.op.len.toNat + bytes.length) :
    receive bytes s = .next s := by
  have hno : ¬canAppend bytes.length s = true := by
    rw [canAppend, decide_eq_true_iff]
    omega
  rw [receive, if_neg hno]

/-- Settles O34: an oversized payload has no encoding to arrive, and 25 + len bytes without room are not appended. -/
theorem arrivingFrameWithoutRoomChangesNothing : Obligations.ArrivingFrameWithoutRoomChangesNothing := by
  unfold Obligations.ArrivingFrameWithoutRoomChangesNothing
  intro s d sr ty p
  refine ⟨fun hover => ?_, fun hp hfull => ?_⟩
  · have hnone : encodeFrame ⟨d, sr, ty, p⟩ = none := if_neg hover.not_ge
    rw [exec, execWireFrame, hnone]
  · rw [exec_wireFrame_eq_receive (encodeFrame_eq_some_iff.mpr ⟨hp, rfl⟩)]
    apply receive_no_room
    simp only [length_frameBytes]
    omega

end Sys2Proof.Machine
end

section
/-! The scanner's answers: the search by where markers stand, bytes that arrive later, and SCAN (42_scanner R140, R142, R145). -/

namespace Sys2Proof.Machine

/-! ## The search (R140) -/

/-- Where a marker stands, one of the markers is the first. -/
theorem exists_firstMarkerAt {buf : List Byte} {m : Nat} (h : MarkerAt buf m) : ∃ k, FirstMarkerAt buf k := by
  classical exact ⟨Nat.find ⟨m, h⟩, Nat.find_spec ⟨m, h⟩, fun _ hk => Nat.find_min ⟨m, h⟩ hk⟩

/-- The search finds nothing when no marker stands anywhere (42_scanner R140). -/
theorem findMarker_eq_none_iff {buf : List Byte} : findMarker buf = none ↔ ∀ m, ¬MarkerAt buf m := by
  simp only [Option.eq_none_iff_forall_ne_some, ne_eq, findMarker_eq_some_iff]
  refine ⟨fun hnone m hm => ?_, fun hnone m hm => hnone m hm.1⟩
  obtain ⟨k, hk⟩ := exists_firstMarkerAt hm
  exact hnone k hk

/-- Settles O7: the search finds the first marker, and there is a first one where one stands at all. -/
theorem scannerFindsTheFirstMarker : Obligations.ScannerFindsTheFirstMarker := by
  unfold Obligations.ScannerFindsTheFirstMarker
  exact fun _ => ⟨fun _ => findMarker_eq_some_iff, findMarker_eq_none_iff⟩

/-! ## Bytes that arrive later (R145) -/

/-- Appended bytes neither make nor unmake a first marker that ends before them. -/
theorem findMarker_append_eq_some_iff {buf : List Byte} {m : Nat} (t : List Byte) (hm : m + 7 ≤ buf.length) :
    findMarker (buf ++ t) = some m ↔ findMarker buf = some m := by
  have htake : (buf ++ t).take (m + 7) = buf.take (m + 7) := List.take_append_of_le_length hm
  exact ⟨findMarker_of_take_eq htake, findMarker_of_take_eq htake.symm⟩

/-- Settles O8: a marker that is found ends inside the buffer, and a new one does not. -/
theorem markerStableUnderAppending : Obligations.MarkerStableUnderAppending := by
  unfold Obligations.MarkerStableUnderAppending
  refine fun buf t => ⟨fun m hm => ?_, fun m hnone hm => ?_⟩
  · obtain ⟨⟨hend, -⟩, -⟩ := findMarker_eq_some_iff.mp hm
    exact (findMarker_append_eq_some_iff t hend).mpr hm
  · by_contra hinside
    rw [findMarker_append_eq_some_iff t (by omega), hnone] at hm
    cases hm

/-! ## SCAN (R142) -/

/-- SCAN of a range that is not inside memory. -/
theorem exec_scan_fails {s : State} (hout : s.memSize < s.op.base.toNat + s.op.len.toNat) :
    exec .scan s = .next (finish .errOperand (beginCommand s)) := by
  rw [exec, execScan, withInput_fails (by simpa using hout)]

/-- SCAN of an input without a marker. -/
theorem exec_scan_none {s : State} (hfit : s.op.base.toNat + s.op.len.toNat ≤ s.memSize)
    (hm : findMarker (inputBytes s) = none) : exec .scan s = .next (finish .waitMarker (beginCommand s)) := by
  rw [exec, execScan, withInput_fits (by simpa using hfit), inputBytes_beginCommand, hm]

/-- SCAN of an input whose first marker stands at `m`. -/
theorem exec_scan_some {s : State} {m : Nat} (hfit : s.op.base.toNat + s.op.len.toNat ≤ s.memSize)
    (hm : findMarker (inputBytes s) = some m) :
    exec .scan s = .next (finish .ok (setRes
      { Results.zero with mpos := BitVec.ofNat 32 m, next := BitVec.ofNat 32 (m + 7) } (beginCommand s))) := by
  rw [exec, execScan, withInput_fits (by simpa using hfit), inputBytes_beginCommand, hm]
  rfl

/-- A marker in the input ends within OP_LEN bytes, so R_MPOS and R_NEXT hold both its offsets. -/
theorem MarkerAt.toNat_ofNat_inputBytes {s : State} {m : Nat} (h : MarkerAt (inputBytes s) m) :
    (BitVec.ofNat 32 m).toNat = m ∧ (BitVec.ofNat 32 (m + 7)).toNat = m + 7 := by
  obtain ⟨hend, -⟩ := h
  rw [length_inputBytes] at hend
  have hlen := s.op.len.isLt
  exact ⟨Nat.mod_eq_of_lt (by omega), Nat.mod_eq_of_lt (by omega)⟩

/-- Settles O28: outside memory, without a marker, and with a first one; each case leaves the others' premises false. -/
theorem scanCommandResult : Obligations.ScanCommandResult := by
  unfold Obligations.ScanCommandResult
  refine ⟨by decide, fun s => ?_⟩
  rcases Nat.lt_or_ge s.memSize (s.op.base.toNat + s.op.len.toNat) with hout | hfit
  · refine ⟨_, exec_scan_fails hout, rfl, operandsAndHostKept_finished .., fun _ => rfl,
      fun _ => ⟨⟨rfl, rfl, rfl⟩, rfl⟩, fun hfit => absurd hout hfit.not_gt, fun hfit => absurd hout hfit.not_gt⟩
  · cases hm : findMarker (inputBytes s) with
    | none =>
      have hnone := findMarker_eq_none_iff.mp hm
      exact ⟨_, exec_scan_none hfit hm, rfl, operandsAndHostKept_finished .., fun _ => rfl,
        fun hout => absurd hout hfit.not_gt, fun _ _ => ⟨⟨rfl, rfl, rfl⟩, rfl⟩, fun _ k hk => absurd hk.1 (hnone k)⟩
    | some m =>
      have hfirst := findMarker_eq_some_iff.mp hm
      refine ⟨_, exec_scan_some hfit hm, rfl, operandsAndHostKept_finished .., fun _ => rfl,
        fun hout => absurd hout hfit.not_gt, fun _ hnone => absurd hfirst.1 (hnone m), fun _ k hk => ?_⟩
      obtain rfl : m = k := Option.some.inj (hm.symm.trans (findMarker_eq_some_iff.mpr hk))
      exact ⟨⟨rfl, rfl, rfl⟩, _, _, rfl, hk.1.toNat_ofNat_inputBytes⟩

end Sys2Proof.Machine
end

section
/-! The packet decoder: its header, the slices by the declared length, and PARSE (43_packet_decoder R160 to R168). -/

namespace Sys2Proof.Machine

/-! ## The header (R161 to R165) -/

/-- The four header fields stand one after the other in the first 14 bytes (43_packet_decoder R163). -/
theorem take_fourteen_eq_fields (t : List Byte) :
    t.take 14 = slice t 0 4 ++ slice t 4 8 ++ slice t 8 10 ++ slice t 10 14 := by
  simp only [slice, List.drop_zero, ← List.take_add]

/-- A header is missing exactly when one of its 14 bytes is no digit (43_packet_decoder R165). -/
theorem parseHeader_eq_none_iff {t : List Byte} : parseHeader t = none ↔ ∃ c ∈ t.take 14, hexval c = none := by
  simp only [take_fourteen_eq_fields, List.mem_append, or_and_right, exists_or, ← parseHex_eq_none_iff]
  unfold parseHeader
  split
  · next hd hs hty hn => simp [hd, hs, hty, hn]
  · next hmissing =>
    rw [eq_self, true_iff]
    by_contra hall
    simp only [not_or, ← ne_eq, Option.ne_none_iff_exists'] at hall
    obtain ⟨⟨⟨⟨d, hd⟩, s, hs⟩, ty, hty⟩, n, hn⟩ := hall
    exact hmissing d s ty n hd hs hty hn

/-- Settles O20: among the results of `parse_packet` only ERR_HEX has 14 bytes and no header, and only WAIT_HEADER fewer bytes. -/
theorem malformedHeaderIsACompleteOneWithABadDigit : Obligations.MalformedHeaderIsACompleteOneWithABadDigit := by
  unfold Obligations.MalformedHeaderIsACompleteOneWithABadDigit
  intro t
  rw [← parseHeader_eq_none_iff]
  rcases parsePacket_cases t with ⟨hshort, hp⟩ | ⟨hlong, hnone, hp⟩ | ⟨h, hlong, hsome, -, hp⟩ | ⟨h, hbody, hsome, hp⟩
  · simp [hp, hshort]
  · simp [hp, hlong, hnone]
  · simp [hp, hlong, hsome]
  · have hlong : 14 ≤ t.length := by omega
    simp [hp, hlong, hsome]

/-! ## Fields, payload and trailer (R163, R166 to R168) -/

/-- A field of `j - i` bytes cannot have more digits than that (30_encoding R79). -/
theorem parseHex_slice_lt {t : List Byte} {i j v : Nat} (h : parseHex (slice t i j) = some v) : v < 16 ^ (j - i) :=
  (parseHex_lt h).trans_le (Nat.pow_le_pow_right (by decide) (by simp [length_slice]))

/-- Four fields that parse make a header (43_packet_decoder R163). -/
theorem parseHeader_eq_some {t : List Byte} {d s ty n : Nat} (hd : parseHex (slice t 0 4) = some d)
    (hs : parseHex (slice t 4 8) = some s) (hty : parseHex (slice t 8 10) = some ty)
    (hn : parseHex (slice t 10 14) = some n) :
    parseHeader t = some ⟨BitVec.ofNat 16 d, BitVec.ofNat 16 s, BitVec.ofNat 8 ty, BitVec.ofNat 16 n⟩ := by
  rw [parseHeader, hd, hs, hty, hn]

/-- A header whose payload and trailer are not all there (43_packet_decoder R166). -/
theorem parsePacket_eq_waitBody {t : List Byte} {h : Header} (hlen : 14 ≤ t.length) (hh : parseHeader t = some h)
    (hshort : t.length < 18 + h.plen.toNat) : parsePacket t = .waitBody h := by
  rw [parsePacket, if_neg (by omega), hh]
  exact if_pos (by omega)

/-- A header with its payload and trailer behind it (43_packet_decoder R167). -/
theorem parsePacket_eq_packet {t : List Byte} {h : Header} (hh : parseHeader t = some h)
    (hlong : 18 + h.plen.toNat ≤ t.length) :
    parsePacket t = .packet h (slice t 14 (14 + h.plen.toNat))
      (parseTrailer (slice t (14 + h.plen.toNat) (18 + h.plen.toNat))) (18 + h.plen.toNat) := by
  rw [parsePacket, if_neg (by omega), hh]
  exact if_neg (by omega)

/-- The declared checksum holds the whole value of a four-byte trailer (43_packet_decoder R168). -/
theorem map_toNat_parseTrailer {t : List Byte} (hlen : t.length = 4) :
    (parseTrailer t).map BitVec.toNat = parseHex t := by
  cases ht : parseHex t with
  | none => simp [parseTrailer, ht]
  | some v =>
    have hv : v < 16 ^ 4 := hlen ▸ parseHex_lt ht
    simpa [parseTrailer, ht] using hv

/-- Settles O21: the length field holds `n` exactly, so the header's own PLEN says how the bytes after it are cut. -/
theorem packetsAreSlicedByTheDeclaredLength : Obligations.PacketsAreSlicedByTheDeclaredLength := by
  unfold Obligations.PacketsAreSlicedByTheDeclaredLength
  intro t d s ty n hlen hd hs hty hn
  have hplen : (BitVec.ofNat 16 n).toNat = n := Nat.mod_eq_of_lt (parseHex_slice_lt hn)
  have hhead := parseHeader_eq_some hd hs hty hn
  refine ⟨parseHex_slice_lt hd, parseHex_slice_lt hs, parseHex_slice_lt hty, parseHex_slice_lt hn,
    fun hshort => parsePacket_eq_waitBody hlen hhead (by rwa [hplen]), fun hlong => ?_⟩
  have hpacket := parsePacket_eq_packet hhead (by rwa [hplen])
  simp only [hplen] at hpacket
  refine ⟨_, hpacket, ?_, map_toNat_parseTrailer ?_⟩ <;> rw [length_slice] <;> omega

/-! ## PARSE (R162) -/

/-- A packet's `next` is the end of its trailer, as R_NEXT holds it (43_packet_decoder R162, R167). -/
theorem ofNat_next_of_parsePacket {t p : List Byte} {h : Header} {decl : Option Half} {next : Nat}
    (hp : parsePacket t = .packet h p decl next) : BitVec.ofNat 32 next = 18#32 + h.plen.setWidth 32 := by
  rcases parsePacket_cases t with ⟨-, hq⟩ | ⟨-, -, hq⟩ | ⟨h', -, -, -, hq⟩ | ⟨h', -, -, hq⟩ <;> cases hq.symm.trans hp
  rw [BitVec.ofNat_add, BitVec.ofNat_toNat]

/-- Settles O29: the frame is that of every command that does not store; the results are those of each result of `parse_packet`. -/
theorem parseCommandResult : Obligations.ParseCommandResult := by
  unfold Obligations.ParseCommandResult
  refine ⟨by decide, fun s => ?_⟩
  obtain ⟨t, ht⟩ : ∃ t, exec .parse s = .next t := ⟨_, rfl⟩
  obtain ⟨hkept, hmem⟩ := nonStoringCommandsKeepMemoryAndOperands .parse s t (by simp) (by simp) ht
  refine ⟨t, ht, hkept, hmem, ?_⟩
  split
  · next hout =>
    rw [exec, execParse, withInput_fails (by simpa using hout)] at ht
    cases ht
    exact ⟨⟨rfl, rfl, rfl⟩, rfl, rfl⟩
  · next hfit =>
    rw [exec, execParse, withInput_fits (by simpa using hfit), inputBytes_beginCommand] at ht
    cases hp : parsePacket (inputBytes s) with
    | packet h p decl next =>
      rw [hp] at ht
      dsimp only at ht
      rw [setDeclared_eq _ _ rfl rfl, ofNat_next_of_parsePacket hp] at ht
      cases ht
      exact ⟨⟨rfl, rfl, rfl⟩, rfl, rfl⟩
    | _ =>
      rw [hp] at ht
      cases ht
      exact ⟨⟨rfl, rfl, rfl⟩, rfl, rfl⟩

end Sys2Proof.Machine
end

section
/-! The checksum validator: what an accepted frame's trailer says, and CHECK (44_checksum_validator R181, R182). -/

namespace Sys2Proof.Machine

/-! ## Accepted frames (R181, R167) -/

/-- A packet is cut out of its bytes by the length its header declares (43_packet_decoder R167, R168). -/
theorem parsePacket_packet {t p : List Byte} {h : Header} {decl : Option Half} {nx : Nat}
    (hp : parsePacket t = .packet h p decl nx) :
    18 + h.plen.toNat ≤ t.length ∧ p = slice t 14 (14 + h.plen.toNat) ∧
      decl = parseTrailer (slice t (14 + h.plen.toNat) (18 + h.plen.toNat)) ∧ nx = 18 + h.plen.toNat := by
  rcases parsePacket_cases t with ⟨-, hq⟩ | ⟨-, -, hq⟩ | ⟨h', -, -, -, hq⟩ | ⟨h', hlen, -, hq⟩ <;> cases hq.symm.trans hp
  exact ⟨hlen, rfl, rfl, rfl⟩

/-- A frame is reported only for the first marker, with a packet behind it that declares its payload's checksum
(45_stream_decode R190). -/
theorem decodeStream_frame {buf p : List Byte} {m next : Nat} {h : Header} {computed : Half}
    (hd : decodeStream buf = .frame m h p computed next) :
    findMarker buf = some m ∧ computed = ccitt16 p ∧
      ∃ nx, parsePacket (buf.drop (m + 7)) = .packet h p (some (ccitt16 p)) nx ∧ next = m + 7 + nx := by
  rcases decodeStream_cases buf with ⟨-, ho⟩ | ⟨m', hm, ⟨-, ho⟩ | ⟨-, ho⟩ | ⟨h', -, ho⟩ |
    ⟨h', p', decl, nx, hp, ⟨hdecl, ho⟩ | ⟨-, ho⟩⟩⟩ <;> cases ho.symm.trans hd
  exact ⟨hm, rfl, nx, hdecl ▸ hp, rfl⟩

/-- Settles O22: the packet behind the first marker is cut by its PLEN, and its four trailer bytes declare the whole value of the
checksum; every offset in the packet is 7 + m less than in the buffer. -/
theorem acceptedFramesCarryTheirChecksum : Obligations.AcceptedFramesCarryTheirChecksum := by
  unfold Obligations.AcceptedFramesCarryTheirChecksum
  intro buf m h p computed next hd
  obtain ⟨hm, rfl, nx, hpacket, rfl⟩ := decodeStream_frame hd
  obtain ⟨hslice, hend⟩ := decodeStream_frame_payload hd
  obtain ⟨-, -, hdecl, rfl⟩ := parsePacket_packet hpacket
  have htrailer : slice (buf.drop (m + 7)) (14 + h.plen.toNat) (18 + h.plen.toNat) =
      slice buf (m + 21 + h.plen.toNat) (m + 25 + h.plen.toNat) := by
    rw [slice_drop]
    congr 1 <;> omega
  have hlen : (slice buf (m + 21 + h.plen.toNat) (m + 25 + h.plen.toNat)).length = 4 := by
    rw [length_slice]
    omega
  refine ⟨findMarker_eq_some_iff.mp hm, hslice, ?_, rfl, ?_, by omega⟩
  · rw [hslice, length_slice]
    omega
  · rw [← map_toNat_parseTrailer hlen, ← htrailer, ← hdecl]
    rfl

/-! ## CHECK (R182) -/

/-- CHECK of a range that is not inside memory. -/
theorem exec_check_fails {s : State} (hout : s.memSize < s.op.base.toNat + s.op.len.toNat) :
    exec .check s = .next (finish .errOperand (beginCommand s)) := by
  rw [exec, execCheck, withInput_fails (by simpa using hout)]

/-- CHECK of a range inside memory records the checksum, and its code compares it with OP_CRC. -/
theorem exec_check_fits {s : State} (hfit : s.op.base.toNat + s.op.len.toNat ≤ s.memSize) :
    exec .check s = .next (finish (if ccitt16 (inputBytes s) = s.op.crc then .ok else .errCrc)
      (setRes { Results.zero with crcCalc := ccitt16 (inputBytes s) } (beginCommand s))) := by
  rw [exec, execCheck, withInput_fits (by simpa using hfit), inputBytes_beginCommand]
  simp only [checkPayload, decide_eq_true_eq]
  rfl

/-- Settles O30: outside memory, and inside it with the code by the comparison. -/
theorem checkCommandResult : Obligations.CheckCommandResult := by
  unfold Obligations.CheckCommandResult
  refine ⟨by decide, fun s => ?_⟩
  rcases Nat.lt_or_ge s.memSize (s.op.base.toNat + s.op.len.toNat) with hout | hfit
  · exact ⟨_, exec_check_fails hout, rfl, operandsAndHostKept_finished .., fun _ => rfl,
      fun _ => ⟨⟨rfl, rfl, rfl⟩, rfl⟩, fun hfit => absurd hout hfit.not_gt⟩
  · exact ⟨_, exec_check_fits hfit, rfl, operandsAndHostKept_finished .., fun _ => rfl,
      fun hout => absurd hout hfit.not_gt,
      fun _ => ⟨rfl, fun heq => ⟨if_pos heq, rfl, rfl⟩, fun hne => ⟨if_neg hne, rfl, rfl⟩⟩⟩

end Sys2Proof.Machine
end

section
/-! The stream decoder: what its outcomes say of the buffer, bytes that arrive later, DECODE, and DRAIN (45_stream_decode R190 to
R198). -/

namespace Sys2Proof.Machine

/-! ## The bytes an outcome accounts for (R190, R196) -/

/-- What an outcome of `decode` says of a buffer of `n` bytes: the marker and what was read behind it are all there, and a
frame's remainder begins where its trailer ends. -/
def StreamResult.Within (n : Nat) : StreamResult → Prop
  | .waitMarker => True
  | .waitHeader m => m + 7 ≤ n
  | .errHex m => m + 21 ≤ n
  | .waitBody m _ => m + 21 ≤ n
  | .errCrc m h _ _ => m + 25 + h.plen.toNat ≤ n
  | .frame m h _ _ next => m + 25 + h.plen.toNat ≤ n ∧ next = m + 25 + h.plen.toNat

/-- Past the wait for a header, the 14 header bytes are there (43_packet_decoder R161). -/
theorem fourteen_le_of_parsePacket {t : List Byte} (hp : parsePacket t ≠ .waitHeader) : 14 ≤ t.length :=
  Nat.le_of_not_lt (mt (malformedHeaderIsACompleteOneWithABadDigit t).2.mpr hp)

/-- Every outcome keeps to its buffer. -/
theorem decodeStream_within (buf : List Byte) : (decodeStream buf).Within buf.length := by
  rcases decodeStream_cases buf with ⟨-, ho⟩ | ⟨m, hm, hcases⟩
  · simp [ho, StreamResult.Within]
  obtain ⟨⟨hend, -⟩, -⟩ := findMarker_eq_some_iff.mp hm
  have hdrop : (buf.drop (m + 7)).length = buf.length - (m + 7) := List.length_drop
  have hlong := fourteen_le_of_parsePacket (t := buf.drop (m + 7))
  rcases hcases with ⟨-, ho⟩ | ⟨hp, ho⟩ | ⟨h, hp, ho⟩ | ⟨h, p, decl, nx, hp, hdecl⟩
  · simpa [ho, StreamResult.Within] using hend
  · have hhead := hlong (by simp [hp])
    simp only [ho, StreamResult.Within]
    omega
  · have hhead := hlong (by simp [hp])
    simp only [ho, StreamResult.Within]
    omega
  · obtain ⟨hlen, -, -, rfl⟩ := parsePacket_packet hp
    rcases hdecl with ⟨-, ho⟩ | ⟨-, ho⟩ <;> simp only [ho, StreamResult.Within] <;> omega

/-- The outcomes that consume bytes consume the marker at least, and no more than there is (R195, R196). -/
theorem StreamResult.Within.remainderOffset_bounds {o : StreamResult} {n : Nat} (ho : o.Within n)
    (hc : o.code = .errHex ∨ o.code = .errCrc ∨ o.code = .ok) : 7 ≤ remainderOffset o ∧ remainderOffset o ≤ n := by
  cases o with
  | waitMarker => simp [StreamResult.code] at hc
  | waitHeader m => simp [StreamResult.code] at hc
  | waitBody m h => simp [StreamResult.code] at hc
  | errHex m =>
    simp only [StreamResult.Within, remainderOffset] at *
    omega
  | errCrc m h decl computed =>
    simp only [StreamResult.Within, remainderOffset] at *
    omega
  | frame m h p computed next =>
    simp only [StreamResult.Within, remainderOffset] at *
    omega

/-! ## Bytes that arrive later (R194, R198) -/

/-- A malformed header and a packet stay what they are when bytes follow (43_packet_decoder R164). -/
theorem parsePacket_append {t : List Byte} (u : List Byte) (hheader : parsePacket t ≠ .waitHeader)
    (hbody : ∀ h, parsePacket t ≠ .waitBody h) : parsePacket (t ++ u) = parsePacket t := by
  have hlong := fourteen_le_of_parsePacket hheader
  have hlen : (t ++ u).length = t.length + u.length := List.length_append
  have hhead : parseHeader (t ++ u) = parseHeader t := parseHeader_eq_of_take_eq (List.take_append_of_le_length hlong)
  rcases parsePacket_cases t with ⟨-, hp⟩ | ⟨-, hnone, hp⟩ | ⟨h, -, -, -, hp⟩ | ⟨h, hend, hsome, hp⟩
  · exact absurd hp hheader
  · rw [hp, parsePacket, if_neg (by omega), hhead, hnone]
  · exact absurd hp (hbody h)
  · rw [hp, parsePacket_eq_packet (hhead.trans hsome) (by omega), slice_append_left (by omega), slice_append_left (by omega)]

/-- Where the packet behind the first marker is decided, so is the outcome. -/
theorem decodeStream_append {buf : List Byte} {m : Nat} (t : List Byte) (hm : findMarker buf = some m)
    (hheader : parsePacket (buf.drop (m + 7)) ≠ .waitHeader) (hbody : ∀ h, parsePacket (buf.drop (m + 7)) ≠ .waitBody h) :
    decodeStream (buf ++ t) = decodeStream buf := by
  obtain ⟨⟨hend, -⟩, -⟩ := findMarker_eq_some_iff.mp hm
  unfold decodeStream
  rw [(findMarker_append_eq_some_iff t hend).mpr hm, hm]
  dsimp only
  rw [List.drop_append_of_le_length hend, parsePacket_append t hheader hbody]

/-- Settles O18: a decided outcome has its first marker and a packet behind it that is no wait. -/
theorem decidedOutcomesSurviveAppending : Obligations.DecidedOutcomesSurviveAppending := by
  unfold Obligations.DecidedOutcomesSurviveAppending
  rintro buf t _ rfl hc
  rcases decodeStream_cases buf with ⟨-, ho⟩ | ⟨m, hm, ⟨-, ho⟩ | ⟨hp, -⟩ | ⟨h, -, ho⟩ | ⟨h, p, decl, nx, hp, -⟩⟩
  · simp [ho, StreamResult.code] at hc
  · simp [ho, StreamResult.code] at hc
  · exact decodeStream_append t hm (by simp [hp]) (by simp [hp])
  · simp [ho, StreamResult.code] at hc
  · exact decodeStream_append t hm (by simp [hp]) (by simp [hp])

/-- Settles O16: a frame that stands first is decoded whatever follows it, and the second stands first in the remainder. -/
theorem backToBackFramesDecodeInOrder : Obligations.BackToBackFramesDecodeInOrder := by
  unfold Obligations.BackToBackFramesDecodeInOrder
  intro f g b c hf hg
  obtain ⟨hpf, rfl⟩ := encodeFrame_eq_some_iff.mp hf
  obtain ⟨hpg, rfl⟩ := encodeFrame_eq_some_iff.mp hg
  have hsecond := decodeStream_frameBytes_append hpg []
  rw [List.append_nil] at hsecond
  rw [List.drop_left, length_frameBytes, length_frameBytes]
  exact ⟨decodeStream_frameBytes_append hpf _, hsecond, List.drop_eq_nil_of_le (length_frameBytes g).le⟩

/-! ## DECODE (R192) -/

/-- The result registers a DECODE leaves for an outcome (R192, the table). -/
def StreamResult.registers (o : StreamResult) : Results :=
  { Results.zero.ofStream o with
    next := BitVec.ofNat 32 (remainderOffset o)
    crcDecl :=
      match o with
      | .errCrc _ _ decl _ => decl.getD 0#16
      | _ => (Results.zero.ofStream o).crcDecl }

/-- STATUS.DECLBAD after a DECODE with this outcome: the trailer of a mismatch did not parse (R192). -/
def StreamResult.declbad : StreamResult → Bool
  | .errCrc _ _ decl _ => decl.isNone
  | _ => false

/-- DECODE of a range that is not inside memory. -/
theorem exec_decode_fails {s : State} (hout : s.memSize < s.op.base.toNat + s.op.len.toNat) :
    exec .decode s = .next (finish .errOperand (beginCommand s)) := by
  rw [exec, execDecode, withInput_fails (by simpa using hout)]

/-- DECODE of a range inside memory reports the outcome of `decode` on its bytes. -/
theorem exec_decode_fits {s : State} (hfit : s.op.base.toNat + s.op.len.toNat ≤ s.memSize) :
    exec .decode s = .next (finish (decodeStream (inputBytes s)).code (setDeclbad (decodeStream (inputBytes s)).declbad
      (setRes (decodeStream (inputBytes s)).registers (beginCommand s)))) := by
  rw [exec, execDecode, withInput_fits (by simpa using hfit), inputBytes_beginCommand]
  dsimp only
  cases decodeStream (inputBytes s) with
  | errCrc m h decl computed =>
    dsimp only
    rw [setDeclared_eq _ _ rfl rfl]
    rfl
  | _ => rfl

/-- An offset within the input fits a result register. -/
theorem toNat_ofNat_of_le_input {s : State} {n : Nat} (h : n ≤ (inputBytes s).length) : (BitVec.ofNat 32 n).toNat = n := by
  rw [length_inputBytes] at h
  exact Nat.mod_eq_of_lt (by omega)

/-- Settles O31: the frame is that of every command that does not store; the results are `registers` of the outcome, whose
offsets lie within the input. -/
theorem decodeCommandResult : Obligations.DecodeCommandResult := by
  unfold Obligations.DecodeCommandResult
  refine ⟨by decide, fun s => ?_⟩
  obtain ⟨t, ht⟩ : ∃ t, exec .decode s = .next t := ⟨_, rfl⟩
  obtain ⟨hkept, hmem⟩ := nonStoringCommandsKeepMemoryAndOperands .decode s t (by simp) (by simp) ht
  refine ⟨t, ht, hkept, hmem, ?_⟩
  split
  · next hout =>
    rw [exec_decode_fails hout] at ht
    cases ht
    exact ⟨⟨rfl, rfl, rfl⟩, rfl, rfl⟩
  · next hfit =>
    rw [exec_decode_fits (by omega)] at ht
    cases ht
    have hwithin := decodeStream_within (inputBytes s)
    have hoffset : ∀ n ≤ (inputBytes s).length, (BitVec.ofNat 32 n).toNat = n := fun n => toNat_ofNat_of_le_input
    generalize decodeStream (inputBytes s) = o at hwithin ⊢
    cases o with
    | waitMarker => exact ⟨⟨rfl, rfl, rfl⟩, rfl, rfl⟩
    | waitHeader m =>
      have hend : m + 7 ≤ _ := hwithin
      exact ⟨⟨rfl, rfl, rfl⟩, rfl, _, hoffset _ (by omega), rfl⟩
    | errHex m =>
      have hend : m + 21 ≤ _ := hwithin
      exact ⟨⟨rfl, rfl, rfl⟩, rfl, _, _, hoffset _ (by omega), hoffset _ (by omega), rfl⟩
    | waitBody m h =>
      have hend : m + 21 ≤ _ := hwithin
      exact ⟨⟨rfl, rfl, rfl⟩, rfl, _, _, hoffset _ (by omega), hoffset _ (by omega), rfl⟩
    | errCrc m h decl computed =>
      have hend : m + 25 + h.plen.toNat ≤ _ := hwithin
      exact ⟨⟨rfl, rfl, rfl⟩, rfl, _, _, _, hoffset _ (by omega), hoffset _ (by omega), hoffset _ (by omega), rfl⟩
    | frame m h p computed next =>
      obtain ⟨hend, rfl⟩ := hwithin
      exact ⟨⟨rfl, rfl, rfl⟩, rfl, _, _, _, hoffset _ (by omega), hoffset _ (by omega), hoffset _ (by omega), rfl⟩

/-! ## DRAIN (R196) -/

/-- A DECODE after which DRAIN goes on has R_NEXT behind the marker and within the range. -/
theorem exec_decode_next_bounds {s t : State} (hx : exec .decode s = .next t)
    (hc : t.code = .errHex ∨ t.code = .errCrc ∨ t.code = .ok) : 7 ≤ t.res.next.toNat ∧ t.res.next.toNat ≤ s.op.len.toNat := by
  rcases Nat.lt_or_ge s.memSize (s.op.base.toNat + s.op.len.toNat) with hout | hfit
  · cases (exec_decode_fails hout).symm.trans hx
    simp at hc
  · cases (exec_decode_fits hfit).symm.trans hx
    have hbounds := (decodeStream_within (inputBytes s)).remainderOffset_bounds hc
    rw [← length_inputBytes]
    simpa [StreamResult.registers, toNat_ofNat_of_le_input hbounds.2] using hbounds

/-- After a DECODE, DRAIN ends with fuel left, or the DECODE consumed bytes and DRAIN ends as the rest of its loop does. -/
theorem drain_ended_cases {base len : Nat} {s t : State} (fuel : Nat) (hx : exec .decode (pointAt base len s) = .next t) :
    (drain (fuel + 1) base len s).ended ≠ .outOfFuel ∨
    ((t.code = .errHex ∨ t.code = .errCrc ∨ t.code = .ok) ∧ (drain (fuel + 1) base len s).ended =
      (drain fuel (base + t.res.next.toNat) (len - t.res.next.toNat) t).ended) := by
  rw [exec] at hx
  cases hc : t.code <;> simp [drain, hx, hc]

/-- Each turn of DRAIN takes at least 7 bytes off the length, so a fuel above `len / 7` lasts; a length above OP_LEN's width is
cut when it is pointed at, never lengthened. -/
theorem drain_ended_ne_outOfFuel {base len fuel : Nat} {s : State} (hi : s.seq = .idle) (hfuel : len / 7 < fuel) :
    (drain fuel base len s).ended ≠ .outOfFuel := by
  induction fuel generalizing base len s with
  | zero => omega
  | succ fuel ih =>
    obtain ⟨t, ht⟩ : ∃ t, exec .decode (pointAt base len s) = .next t := ⟨_, rfl⟩
    rcases drain_ended_cases fuel ht with hended | ⟨hc, hended⟩
    · exact hended
    · obtain ⟨hmin, hmax⟩ := exec_decode_next_bounds ht hc
      have hlen : (pointAt base len s).op.len.toNat ≤ len := by
        simpa only [pointAt_idle hi, BitVec.toNat_ofNat] using Nat.mod_le ..
      obtain ⟨c, b, r, m, rfl, -⟩ := exec_finishes (by simp) ht
      rw [hended]
      exact ih rfl (by omega)

/-- Settles O17: the bounds are those of `decodeStream_within`, and DRAIN's loop consumes by them. -/
theorem everyDecidedOutcomeMakesProgress : Obligations.EveryDecidedOutcomeMakesProgress := by
  unfold Obligations.EveryDecidedOutcomeMakesProgress
  refine ⟨fun buf => ?_, fun s base len fuel => drain_ended_ne_outOfFuel⟩
  have hwithin := decodeStream_within buf
  generalize decodeStream buf = o at hwithin ⊢
  cases o with
  | waitMarker => rfl
  | waitHeader m => rfl
  | waitBody m h => rfl
  | errHex m =>
    have hend : m + 21 ≤ _ := hwithin
    exact ⟨by omega, rfl, by omega⟩
  | errCrc m h decl computed =>
    have hend : m + 25 + h.plen.toNat ≤ _ := hwithin
    exact ⟨by omega, rfl, by omega⟩
  | frame m h p computed next => exact ⟨by omega, hwithin.2, hwithin.1⟩

end Sys2Proof.Machine
end

section
/-! DECODE and the host sequence SCAN, PARSE, CHECK tell the host the same (45_stream_decode R193). Either run is shown to report
what `decode` says of the buffer, from what each of its commands is known to do. -/

namespace Sys2Proof.Machine

/-- What the host learns of a buffer with this outcome, by DECODE as by the unit sequence (R192, R193). -/
def StreamResult.report : StreamResult → UnitRun
  | .waitMarker => ⟨.waitMarker, 0, Header.zero, 0, 0#16, false, 0#16, 0⟩
  | .waitHeader m => ⟨.waitHeader, m, Header.zero, 0, 0#16, false, 0#16, 0⟩
  | .errHex m => ⟨.errHex, m, Header.zero, 0, 0#16, false, 0#16, m + 7⟩
  | .waitBody m h => ⟨.waitBody, m, h, m + 21, 0#16, false, 0#16, 0⟩
  | .errCrc m h decl computed => ⟨.errCrc, m, h, m + 21, decl.getD 0#16, decl.isNone, computed, m + 7⟩
  | .frame m h _ computed _ => ⟨.ok, m, h, m + 21, computed, false, computed, m + 25 + h.plen.toNat⟩

/-- A range the host of an idle block can point a command at: inside memory, its length within OP_LEN. -/
structure RangeReady (s : State) (base len : Nat) : Prop where
  idle : s.seq = .idle
  memSize_le : s.memSize ≤ 2 ^ 32
  inside : base + len ≤ s.memSize
  len_lt : len < 2 ^ 32

/-- The bytes of a range behind its first `k`. -/
theorem Memory.drop_readBytes (m : Memory) (a : Nat) {n k : Nat} (hk : k ≤ n) :
    (m.readBytes a n).drop k = m.readBytes (a + k) (n - k) := by
  obtain ⟨l, rfl⟩ := Nat.exists_eq_add_of_le hk
  rw [Memory.readBytes_add, List.drop_left' (Memory.length_readBytes ..), Nat.add_sub_cancel_left]

namespace RangeReady

variable {s : State} {base len : Nat} (hr : RangeReady s base len)
include hr

/-- A command pointed at the range passes the range check and has the range's bytes as its input. -/
theorem pointed : (pointAt base len s).op.base.toNat + (pointAt base len s).op.len.toNat ≤ (pointAt base len s).memSize ∧
    inputBytes (pointAt base len s) = s.mem.readBytes base len :=
  ⟨pointAt_fits hr.idle hr.inside hr.len_lt, inputBytes_pointAt hr.idle hr.memSize_le hr.inside hr.len_lt⟩

/-- A command that stores nothing leaves every part of the range ready, with its bytes. -/
theorem after {i : Instr} {t : State} (hencode : i ≠ .encode) (hframe : ∀ d sr ty p, i ≠ .wireFrame d sr ty p)
    (hx : exec i (pointAt base len s) = .next t) :
    t.mem = s.mem ∧ ∀ j n, j + n ≤ len → RangeReady t (base + j) n := by
  obtain ⟨c, b, r, m, rfl, hm, -⟩ := exec_finishes hframe hx
  rcases hm with rfl | ⟨hi, -⟩
  · obtain ⟨hidle, hsize, hin, hlen⟩ := hr
    rw [pointAt_idle hidle]
    exact ⟨rfl, fun j n hj => ⟨rfl, hsize, by simp; omega, by omega⟩⟩
  · exact absurd hi hencode

/-- DECODE reports what `decode` says of the range. -/
theorem decodeRun_eq_report : decodeRun base len s = (decodeStream (s.mem.readBytes base len)).report := by
  obtain ⟨hfit, hin⟩ := hr.pointed
  obtain ⟨-, hdecode⟩ := decodeCommandResult
  obtain ⟨t, ht, -, -, hres⟩ := hdecode (pointAt base len s)
  rw [if_neg hfit.not_gt, hin] at hres
  rw [exec] at ht
  simp only [decodeRun, ht, outcomeState, headerOf]
  generalize decodeStream (s.mem.readBytes base len) = o at hres ⊢
  cases o with
  | waitMarker =>
    obtain ⟨⟨hcode, -⟩, hbad, hregs⟩ := hres
    simp [StreamResult.report, hcode, hbad, hregs, Results.zero, Header.zero]
  | waitHeader m =>
    obtain ⟨⟨hcode, -⟩, hbad, mpos, hmpos, hregs⟩ := hres
    simp [StreamResult.report, hcode, hbad, hregs, hmpos, Results.zero, Header.zero]
  | errHex m =>
    obtain ⟨⟨hcode, -⟩, hbad, mpos, next, hmpos, hnext, hregs⟩ := hres
    simp [StreamResult.report, hcode, hbad, hregs, hmpos, hnext, Results.zero, Header.zero]
  | waitBody m h =>
    obtain ⟨⟨hcode, -⟩, hbad, mpos, poff, hmpos, hpoff, hregs⟩ := hres
    simp [StreamResult.report, hcode, hbad, hregs, hmpos, hpoff, Results.zero]
  | errCrc m h decl computed =>
    obtain ⟨⟨hcode, -⟩, hbad, mpos, poff, next, hmpos, hpoff, hnext, hregs⟩ := hres
    simp [StreamResult.report, hcode, hbad, hregs, hmpos, hpoff, hnext]
  | frame m h p computed next =>
    obtain ⟨⟨hcode, -⟩, hbad, mpos, poff, next, hmpos, hpoff, hnext, hregs⟩ := hres
    simp [StreamResult.report, hcode, hbad, hregs, hmpos, hpoff, hnext]

/-- CRC.CCITT on the range. -/
theorem execCrcCcitt_pointAt :
    ∃ t, execCrcCcitt (pointAt base len s) = .next t ∧ t.res.crcCalc = ccitt16 (s.mem.readBytes base len) := by
  obtain ⟨hfit, hin⟩ := hr.pointed
  obtain ⟨-, hcrc⟩ := crcCcittCommandResult
  obtain ⟨t, ht, -, -, -, hres, -⟩ := hcrc (pointAt base len s)
  obtain ⟨-, hregs⟩ := hres hfit
  exact ⟨t, ht, by rw [hregs, hin]⟩

/-- CHECK on the range, with a declared checksum in OP_CRC. -/
theorem execCheck_pointAt (decl : Half) :
    ∃ t, execCheck (writeReg .opCrc (decl.setWidth 32) (pointAt base len s)) = .next t ∧
      t.res.crcCalc = ccitt16 (s.mem.readBytes base len) ∧
      t.code = if ccitt16 (s.mem.readBytes base len) = decl then .ok else .errCrc := by
  obtain ⟨hfit, hin⟩ := hr.pointed
  have hop : writeReg .opCrc (decl.setWidth 32) (pointAt base len s) =
      { pointAt base len s with op := { (pointAt base len s).op with crc := decl } } := by
    rw [writeReg_not_cmd (by decide), if_neg (by simp [pointAt_idle hr.idle, hr.idle])]
    simp [setOperand]
  rw [hop]
  exact ⟨_, exec_check_fits hfit, congrArg ccitt16 hin, by rw [← hin]; rfl⟩

/-- SCAN on the range, where a marker stands: the rest behind it is ready for PARSE. -/
theorem execScan_pointAt_some {m : Nat} (hm : findMarker (s.mem.readBytes base len) = some m) :
    ∃ t, execScan (pointAt base len s) = .next t ∧ t.code = .ok ∧ t.res.mpos.toNat = m ∧ t.res.next.toNat = m + 7 ∧
      RangeReady t (base + (m + 7)) (len - (m + 7)) ∧
      t.mem.readBytes (base + (m + 7)) (len - (m + 7)) = (s.mem.readBytes base len).drop (m + 7) := by
  obtain ⟨hfit, hin⟩ := hr.pointed
  obtain ⟨-, hscan⟩ := scanCommandResult
  obtain ⟨t, ht, -, -, -, -, -, hfound⟩ := hscan (pointAt base len s)
  have hfirst := findMarker_eq_some_iff.mp hm
  have ⟨⟨hend, _⟩, _⟩ := hfirst
  rw [Memory.length_readBytes] at hend
  obtain ⟨⟨hcode, -⟩, mpos, next, hregs, hmpos, hnext⟩ := hfound hfit m (by rwa [hin])
  obtain ⟨hmem, hrest⟩ := hr.after (by simp) (by simp) ht
  exact ⟨t, ht, hcode, by rwa [hregs], by rwa [hregs], hrest _ _ (by omega), by rw [hmem, Memory.drop_readBytes _ _ hend]⟩

/-- PARSE on the range, where a packet stands: what it tells of the packet, and its payload ready for a checksum. -/
theorem execParse_pointAt_packet {h : Header} {p : List Byte} {decl : Option Half} {nx : Nat}
    (hp : parsePacket (s.mem.readBytes base len) = .packet h p decl nx) :
    ∃ t, execParse (pointAt base len s) = .next t ∧ t.code = .ok ∧ t.declbad = decl.isNone ∧ headerOf t = h ∧
      t.res.poff.toNat = 14 ∧ t.res.crcDecl = decl.getD 0#16 ∧ t.res.next.toNat = 18 + h.plen.toNat ∧
      RangeReady t (base + 14) h.plen.toNat ∧ t.mem.readBytes (base + 14) h.plen.toNat = p := by
  obtain ⟨hfit, hin⟩ := hr.pointed
  obtain ⟨-, hparse⟩ := parseCommandResult
  obtain ⟨t, ht, -, -, hres⟩ := hparse (pointAt base len s)
  rw [if_neg hfit.not_gt, hin, hp] at hres
  obtain ⟨⟨hcode, -⟩, hbad, hregs⟩ := hres
  obtain ⟨hlen, rfl, -⟩ := parsePacket_packet hp
  rw [Memory.length_readBytes] at hlen
  obtain ⟨hmem, hrest⟩ := hr.after (by simp) (by simp) ht
  refine ⟨t, ht, hcode, hbad, by simp [headerOf, hregs], by simp [hregs], by simp [hregs], ?_, hrest _ _ (by omega), ?_⟩
  · simp only [hregs]
    bv_omega
  · rw [hmem, slice_readBytes _ (by omega) (by omega), Nat.add_sub_cancel_left]

/-- The unit sequence where a packet stands behind the first marker: CRC.CCITT when its trailer did not parse, else CHECK. -/
theorem unitSequence_of_packet {m nx : Nat} {h : Header} {p : List Byte} {decl : Option Half}
    (hm : findMarker (s.mem.readBytes base len) = some m)
    (hp : parsePacket ((s.mem.readBytes base len).drop (m + 7)) = .packet h p decl nx) :
    unitSequence base len s = if decl = some (ccitt16 p) then (StreamResult.frame m h p (ccitt16 p) (m + 7 + nx)).report
      else (StreamResult.errCrc m h decl (ccitt16 p)).report := by
  obtain ⟨t1, hscan, hcode1, hmpos, hnext1, hr1, hbytes⟩ := hr.execScan_pointAt_some hm
  rw [← hbytes] at hp
  obtain ⟨t2, hparse, hcode2, hbad, hhead, hpoff, hdecl, hnext2, hr2, hpayload⟩ := hr1.execParse_pointAt_packet hp
  have hplen : t2.res.plen = h.plen := congrArg Header.plen hhead
  cases decl with
  | none =>
    obtain ⟨t3, hcrc, hcalc⟩ := hr2.execCrcCcitt_pointAt
    rw [hpayload] at hcalc
    simp [StreamResult.report, unitSequence, outcomeState, hscan, hcode1, hmpos, hnext1, hparse, hcode2, hbad, hhead, hpoff,
      hplen, hcrc, hcalc]
  | some v =>
    obtain ⟨t3, hcheck, hcalc, hcode3⟩ := hr2.execCheck_pointAt v
    rw [hpayload] at hcalc hcode3
    by_cases hv : ccitt16 p = v
    · have hend : m + 7 + (18 + h.plen.toNat) = m + 25 + h.plen.toNat := by omega
      rw [if_pos hv] at hcode3
      simp [StreamResult.report, unitSequence, outcomeState, hscan, hcode1, hmpos, hnext1, hparse, hcode2, hbad, hhead, hpoff,
        hplen, hdecl, hnext2, hcheck, hcalc, hcode3, hv, hend]
    · rw [if_neg hv] at hcode3
      simp [StreamResult.report, unitSequence, outcomeState, hscan, hcode1, hmpos, hnext1, hparse, hcode2, hbad, hhead, hpoff,
        hplen, hdecl, hcheck, hcalc, hcode3, Ne.symm hv]

/-- SCAN, PARSE and CHECK report what `decode` says of the range: the outcomes as they come about (R190). -/
theorem unitSequence_eq_report : unitSequence base len s = (decodeStream (s.mem.readBytes base len)).report := by
  obtain ⟨hfit, hin⟩ := hr.pointed
  rcases decodeStream_cases (s.mem.readBytes base len) with ⟨hm, ho⟩ | ⟨m, hm, hpacket⟩
  · have hscan : execScan (pointAt base len s) = _ := exec_scan_none hfit (by rwa [hin])
    simp [ho, StreamResult.report, unitSequence, outcomeState, hscan]
  obtain ⟨t1, hscan, hcode1, hmpos, hnext1, hr1, hbytes⟩ := hr.execScan_pointAt_some hm
  obtain ⟨hfit1, hin1⟩ := hr1.pointed
  obtain ⟨-, hparse⟩ := parseCommandResult
  obtain ⟨t2, ht2, -, -, hres⟩ := hparse (pointAt (base + (m + 7)) (len - (m + 7)) t1)
  rw [exec] at ht2
  rw [if_neg hfit1.not_gt, hin1, hbytes] at hres
  rcases hpacket with ⟨hp, ho⟩ | ⟨hp, ho⟩ | ⟨h, hp, ho⟩ | ⟨h, p, decl, nx, hp, hdecl⟩
  · rw [hp] at hres
    obtain ⟨⟨hcode2, -⟩, -⟩ := hres
    simp [ho, StreamResult.report, unitSequence, outcomeState, hscan, hcode1, hmpos, hnext1, ht2, hcode2]
  · rw [hp] at hres
    obtain ⟨⟨hcode2, -⟩, -⟩ := hres
    simp [ho, StreamResult.report, unitSequence, outcomeState, hscan, hcode1, hmpos, hnext1, ht2, hcode2]
  · rw [hp] at hres
    obtain ⟨⟨hcode2, -⟩, -, hregs⟩ := hres
    simp [ho, StreamResult.report, unitSequence, outcomeState, hscan, hcode1, hmpos, hnext1, ht2, hcode2, headerOf, hregs]
  · rw [hr.unitSequence_of_packet hm hp]
    rcases hdecl with ⟨heq, ho⟩ | ⟨hne, ho⟩
    · rw [if_pos heq, ho]
    · rw [if_neg hne, ho]

end RangeReady

/-- Settles O42: on a range inside memory either run reports what `decode` says of its bytes. -/
theorem decodeEqualsTheUnitSequence : Obligations.DecodeEqualsTheUnitSequence := by
  unfold Obligations.DecodeEqualsTheUnitSequence
  intro s base len hidle hsize hinside hlen
  have hr : RangeReady s base len := ⟨hidle, hsize, hinside, hlen⟩
  exact hr.unitSequence_eq_report.trans hr.decodeRun_eq_report.symm

end Sys2Proof.Machine
end

section
/-! What goes wrong and how it is reported: trailers damaged by one bit, the first cause of a mismatch, the diagnostic event, and
who may change an operand register (60_exceptions R224 to R238). -/

namespace Sys2Proof.Machine

/-! ## Damaged trailers (R224) -/

/-- Refutes O23: the empty frame's trailer `ffff` becomes `Ffff` when bit 5 of its first byte flips, and the frame is still
accepted (log 18). -/
theorem not_everyTrailerBitFlipIsAMismatch : ¬ Obligations.EveryTrailerBitFlipIsAMismatch := by
  unfold Obligations.EveryTrailerBitFlipIsAMismatch
  intro h
  have haccepted : (decodeStream (flipBit (frameBytes ⟨0#16, 0#16, 0#8, []⟩) 21 5)).code = .ok := by decide +kernel
  have hmismatch := h ⟨0#16, 0#16, 0#8, []⟩ _ 0 5 (encodeFrame_eq_some_iff.mpr ⟨by decide, rfl⟩) (by decide) (by decide)
  cases haccepted.symm.trans hmismatch

/-- A flipped bit leaves the number of bytes. -/
@[simp] theorem length_flipBit (bytes : List Byte) (i k : Nat) : (flipBit bytes i k).length = bytes.length :=
  List.length_modify ..

/-- A flipped bit leaves the bytes before it. -/
theorem take_flipBit {i j : Nat} (h : j ≤ i) (bytes : List Byte) (k : Nat) : (flipBit bytes i k).take j = bytes.take j := by
  rw [flipBit, List.take_modify, List.modify_eq_self ((List.length_take_le _ _).trans h)]

/-- A slice up to the end of the bytes is all that follows its begin. -/
theorem slice_to_end {b : List Byte} {i j : Nat} (h : b.length ≤ j) : slice b i j = b.drop i :=
  List.take_of_length_le (by rw [List.length_drop]; omega)

/-- A four-byte trailer declares the checksum its digits say (43_packet_decoder R168). -/
theorem parseTrailer_eq_some_iff {t : List Byte} (hlen : t.length = 4) {v : Half} :
    parseTrailer t = some v ↔ parseHex t = some v.toNat := by
  rw [← map_toNat_parseTrailer hlen, Option.map_eq_some_iff]
  simp [BitVec.toNat_inj]

/-- Bytes that are a frame's up to its trailer, and end with four bytes that declare another checksum, are a mismatch of that
frame (44_checksum_validator R180, 45_stream_decode R190). -/
theorem decodeStream_bad_trailer {f : Frame} (hp : f.payload.length ≤ maxPayload) {b : List Byte}
    (hlen : b.length = 25 + f.payload.length) (htake : b.take (21 + f.payload.length) = (frameBytes f).take (21 + f.payload.length))
    (hbad : parseHex (b.drop (21 + f.payload.length)) ≠ some (ccitt16 f.payload).toNat) :
    decodeStream b =
      .errCrc 0 f.header (parseTrailer (b.drop (21 + f.payload.length))) (ccitt16 f.payload) := by
  have hbefore : ∀ k ≤ 21 + f.payload.length, (frameBytes f).take k = b.take k := fun k hk => by
    simpa [List.take_take, Nat.min_eq_left hk] using (congrArg (List.take k) htake).symm
  have hmarker : findMarker b = some 0 := by
    refine findMarker_of_take_eq (hbefore 7 (by omega)) ?_
    simp only [frameBytes, List.append_assoc]
    exact findMarker_marker_append _
  have hheader : parseHeader (b.drop 7) = some f.header := by
    have hsame : ((frameBytes f).drop 7).take 14 = (b.drop 7).take 14 := by
      rw [List.take_drop, List.take_drop, hbefore 21 (by omega)]
    rw [← parseHeader_eq_of_take_eq hsame]
    simpa using parseHeader_frameBytes_append f []
  have hplen := Frame.header_plen_toNat hp
  have hpacket := parsePacket_eq_packet hheader (by rw [hplen, List.length_drop]; omega)
  have hpayload : slice b 21 (21 + f.payload.length) = f.payload := by
    rw [slice_eq_of_take_eq htake (by omega), slice_frameBytes_payload]
  have htrailer : slice b (21 + f.payload.length) (25 + f.payload.length) = b.drop (21 + f.payload.length) :=
    slice_to_end hlen.le
  rw [hplen, slice_drop, slice_drop, ← Nat.add_assoc, ← Nat.add_assoc, hpayload, htrailer] at hpacket
  rw [decodeStream, hmarker]
  dsimp only
  rw [hpacket]
  exact if_neg (mt (parseTrailer_eq_some_iff (by rw [List.length_drop]; omega)).mp hbad)

/-- Settles O24: the flip leaves everything before the trailer, and equal values would come from equal digits. -/
theorem trailerBitFlipThatChangesTheDigitIsAMismatch : Obligations.TrailerBitFlipThatChangesTheDigitIsAMismatch := by
  unfold Obligations.TrailerBitFlipThatChangesTheDigitIsAMismatch
  intro f b j k hb _ _ hdigits
  obtain ⟨hp, rfl⟩ := encodeFrame_eq_some_iff.mp hb
  have htrailer : (frameBytes f).drop (21 + f.payload.length) = hex4 (ccitt16 f.payload) := by
    rw [← slice_frameBytes_trailer, slice_to_end (length_frameBytes f).le]
  rw [htrailer] at hdigits
  have hmismatch := decodeStream_bad_trailer hp (by rw [length_flipBit, length_frameBytes])
    (take_flipBit (Nat.le_add_right _ j) (frameBytes f) k) fun hsame =>
      hdigits (parseHex_digits_eq (by simp; omega) hsame (parseHex_hex4 _))
  exact ⟨_, hmismatch, by rw [hmismatch]; rfl⟩

/-! ## The first cause (R232) -/

/-- PLEN is what the last four header bytes say (43_packet_decoder R163). -/
theorem parseHex_plen_of_parseHeader {t : List Byte} {h : Header} (hh : parseHeader t = some h) :
    parseHex (slice t 10 14) = some h.plen.toNat := by
  unfold parseHeader at hh
  split at hh
  · next n _ _ _ hn =>
    cases hh
    have hlt : n < 16 ^ 4 := parseHex_slice_lt hn
    rw [hn, BitVec.toNat_ofNat, Nat.mod_eq_of_lt (by omega)]
  · cases hh

/-- A whole packet behind the first marker is OK exactly when its trailer says its payload's checksum (44_checksum_validator R180,
45_stream_decode R190); a trailer that does not parse says no checksum. -/
theorem code_decodeStream_of_packet {buf : List Byte} {m : Nat} {h : Header} (hm : findMarker buf = some m)
    (hh : parseHeader (buf.drop (m + 7)) = some h) (hlen : m + 25 + h.plen.toNat ≤ buf.length) :
    (decodeStream buf).code =
      if parseHex (slice buf (m + 21 + h.plen.toNat) (m + 25 + h.plen.toNat))
        ≠ some (ccitt16 (slice buf (m + 21) (m + 21 + h.plen.toNat))).toNat then .errCrc else .ok := by
  have hp := parsePacket_eq_packet hh (by rw [List.length_drop]; omega)
  have htrailer : m + 7 + (14 + h.plen.toNat) = m + 21 + h.plen.toNat := by omega
  have hend : m + 7 + (18 + h.plen.toNat) = m + 25 + h.plen.toNat := by omega
  rw [slice_drop, slice_drop, htrailer, hend] at hp
  rw [decodeStream, hm]
  dsimp only
  rw [hp]
  dsimp only
  simp only [parseTrailer_eq_some_iff (t := slice buf (m + 21 + h.plen.toNat) (m + 25 + h.plen.toNat))
    (by rw [length_slice]; omega), ite_not]
  split <;> rfl

/-- Settles O38: past the range check and the marker, one case for each result of `parse_packet`; a trailer that does not parse and
one that declares another checksum are the same cause. -/
theorem decodeReportsTheFirstCause : Obligations.DecodeReportsTheFirstCause := by
  unfold Obligations.DecodeReportsTheFirstCause
  intro s t ht
  split
  · next hout =>
    rw [exec_decode_fails hout] at ht
    cases ht
    rfl
  next hfit =>
  have hcode : t.code = (decodeStream (inputBytes s)).code := by
    rw [exec_decode_fits (by omega)] at ht
    cases ht
    rfl
  rw [hcode]
  generalize inputBytes s = buf
  refine ⟨fun hnone => ?_, fun m hm => ?_⟩
  · rw [decodeStream, findMarker_eq_none_iff.mpr hnone]
    rfl
  have hmarker := findMarker_eq_some_iff.mpr hm
  have hlen : (buf.drop (m + 7)).length = buf.length - (m + 7) := List.length_drop
  have hslice : slice buf (m + 7) (m + 21) = (buf.drop (m + 7)).take 14 := by
    rw [slice, show m + 21 - (m + 7) = 14 by omega]
  rw [hslice]
  rcases parsePacket_cases (buf.drop (m + 7)) with
    ⟨hshort, hp⟩ | ⟨hlong, hnone, hp⟩ | ⟨h, hlong, hsome, hbody, hp⟩ | ⟨h, hend, hsome, hp⟩
  · rw [if_pos (by omega)]
    simp [decodeStream, hmarker, hp, StreamResult.code]
  · rw [if_neg (by omega), if_pos (parseHeader_eq_none_iff.mp hnone)]
    simp [decodeStream, hmarker, hp, StreamResult.code]
  all_goals
    have hplen := parseHex_plen_of_parseHeader hsome
    rw [slice_drop, show m + 7 + 10 = m + 17 by omega, show m + 7 + 14 = m + 21 by omega] at hplen
    rw [if_neg (by omega), if_neg (by simp [← parseHeader_eq_none_iff, hsome]), hplen]
    rintro n ⟨⟩
  · rw [if_pos (by omega)]
    simp [decodeStream, hmarker, hp, StreamResult.code]
  · rw [if_neg (by omega), code_decodeStream_of_packet hmarker hsome (by omega)]
    split <;> rfl

/-! ## The diagnostic event (R236) -/

/-- The commands an event is emitted for. -/
theorem emitsEvents_iff {i : Instr} : emitsEvents i = true ↔ i = .parse ∨ i = .check ∨ i = .decode := by
  cases i <;> simp [emitsEvents]

/-- An event is emitted for three commands and five codes. -/
theorem diagnosticEvent_eq_ite (i : Instr) (t : State) : diagnosticEvent i t =
    if (i = .parse ∨ i = .check ∨ i = .decode) ∧ 1 ≤ t.code.num.toNat ∧ t.code.num.toNat ≤ 5 then some (eventOf t) else none := by
  simp only [diagnosticEvent, Code.isDiagnostic, Bool.and_eq_true, emitsEvents_iff, decide_eq_true_eq]

/-- A PARSE or DECODE that ends before a header was parsed leaves both identifiers and DECLBAD 0 (R236); CHECK has no such
end (10_state R32). -/
theorem exec_no_identifiers {i : Instr} {s t : State} (hi : i = .parse ∨ i = .check ∨ i = .decode) (ht : exec i s = .next t)
    (hc : t.code = .waitMarker ∨ t.code = .waitHeader ∨ t.code = .errHex) :
    t.declbad = false ∧ t.res.dest = 0#16 ∧ t.res.src = 0#16 := by
  rcases hi with rfl | rfl | rfl
  · obtain ⟨-, hparse⟩ := parseCommandResult
    obtain ⟨u, hu, -, -, hres⟩ := hparse s
    cases ht.symm.trans hu
    split at hres
    · obtain ⟨-, hzero, hbad⟩ := hres
      simp [hzero, hbad, Results.zero]
    · cases hp : parsePacket (inputBytes s) <;> simp only [hp] at hres <;> obtain ⟨⟨hcode, -⟩, hrest⟩ := hres
      case waitBody | packet => simp [hcode] at hc
      all_goals simp [hrest, Results.zero]
  · rcases onlyListedCodesArise .check s t ht with h | h | h <;> simp [h] at hc
  · obtain ⟨-, hdecode⟩ := decodeCommandResult
    obtain ⟨u, hu, -, -, hres⟩ := hdecode s
    cases ht.symm.trans hu
    split at hres
    · obtain ⟨-, hzero, hbad⟩ := hres
      simp [hzero, hbad, Results.zero]
    · cases hd : decodeStream (inputBytes s) <;> simp only [hd] at hres <;> obtain ⟨⟨hcode, -⟩, hbad, hrest⟩ := hres
      case waitBody | errCrc | frame => simp [hcode] at hc
      case waitMarker => simp [hbad, hrest, Results.zero]
      case waitHeader =>
        obtain ⟨_, -, hregs⟩ := hrest
        simp [hbad, hregs, Results.zero]
      case errHex =>
        obtain ⟨_, _, -, -, hregs⟩ := hrest
        simp [hbad, hregs, Results.zero]

/-- Settles O45: the tuple stands in the registers, and what the commands leave there is `decodeCommandResult` and
`exec_no_identifiers`. -/
theorem mismatchEmitsTheDiagnosticEvent : Obligations.MismatchEmitsTheDiagnosticEvent := by
  unfold Obligations.MismatchEmitsTheDiagnosticEvent
  refine ⟨fun i t => ⟨fun h => ?_, fun h => ?_⟩, fun s t m h decl computed hfit hd ht => ?_, fun i s t hi ht hc => ?_⟩
  · rw [diagnosticEvent_eq_ite, if_pos h, eventOf]
  · rw [diagnosticEvent_eq_ite, if_neg h]
  · obtain ⟨-, hdecode⟩ := decodeCommandResult
    obtain ⟨u, hu, -, -, hres⟩ := hdecode s
    cases ht.symm.trans hu
    rw [if_neg hfit.not_gt, hd] at hres
    obtain ⟨⟨hcode, -⟩, hbad, mpos, poff, next, hmpos, -, -, hregs⟩ := hres
    refine ⟨mpos, hmpos, ?_⟩
    rw [diagnosticEvent_eq_ite, hcode, if_pos (by decide), eventOf, hcode, hbad, hregs]
  · obtain ⟨hbad, hdest, hsrc⟩ := exec_no_identifiers hi ht hc
    have hnum : 1 ≤ t.code.num.toNat ∧ t.code.num.toNat ≤ 5 := by
      rcases hc with h | h | h <;> rw [h] <;> decide
    rw [diagnosticEvent_eq_ite, if_pos ⟨hi, hnum⟩, eventOf, hbad, hdest, hsrc]

/-! ## Who changes operands (R234, R238) -/

/-- A host write to any register keeps MEM_SIZE (20_memory R50). -/
theorem writeReg_memSize (r : Reg) (v : Word) (s : State) : (writeReg r v s).memSize = s.memSize := by
  by_cases hr : r = .cmd
  · subst hr
    simp only [writeReg, writeCmd]
    split
    · rfl
    · split <;> rfl
  · rw [writeReg_not_cmd hr]
    split <;> rfl

/-- While BUSY a host write to any register changes nothing (10_state R25, R29). -/
theorem writeReg_busy {s : State} (hb : busy s = true) (r : Reg) (v : Word) : writeReg r v s = s := by
  by_cases hr : r = .cmd
  · subst hr
    exact writeCmd_busy hb v
  · rw [writeReg_not_cmd hr, if_pos hb]

/-- A reset keeps MEM_SIZE, whatever it cuts off (20_memory R50). -/
@[simp] theorem resetBlock_memSize (s : State) : (resetBlock s).memSize = s.memSize := by
  unfold resetBlock abandonCommand
  split <;> rfl

/-- A host read of any register keeps MEM_SIZE and the operands. -/
theorem readReg_operands (r : Reg) (s : State) : (readReg r s).2.memSize = s.memSize ∧ (readReg r s).2.op = s.op := by
  rw [readReg_state]
  exact ⟨rfl, rfl⟩

/-- The accesses that may change an operand register, by what the sequencer is doing (10_state R25, 20_memory R51). -/
def HostAccess.MayChangeOperands (a : HostAccess) (isBusy : Bool) : Prop :=
  a = .reset ∨ (∃ n v, a = .writeReg n v ∧ isBusy = false) ∨ ∃ bytes, a = .receive bytes ∧ isBusy = false

/-- An access of the host keeps MEM_SIZE, and the operands unless it is one that may change them. -/
theorem hostAccess_operands {a : HostAccess} {s t : State} (hx : hostAccess a s = .next t) :
    t.memSize = s.memSize ∧ (t.op = s.op ∨ a.MayChangeOperands (busy s)) := by
  cases a with
  | writeReg n v =>
    simp only [hostAccess] at hx
    split at hx <;> cases hx
    refine ⟨writeReg_memSize .., ?_⟩
    cases hb : busy s with
    | true => exact .inl (by rw [writeReg_busy hb])
    | false => exact .inr (.inr (.inl ⟨n, v, rfl, rfl⟩))
  | readReg n =>
    simp only [hostAccess] at hx
    split at hx <;> cases hx
    exact (readReg_operands _ s).imp_right .inl
  | writeMem a bytes =>
    obtain ⟨-, rfl⟩ := hostStore_next hx
    exact ⟨rfl, .inl rfl⟩
  | readMem a n =>
    obtain ⟨-, rfl⟩ := hostLoad_next hx
    exact ⟨rfl, .inl rfl⟩
  | wait =>
    cases hx
    exact ⟨rfl, .inl rfl⟩
  | receive bytes =>
    rcases receive_next hx with rfl | ⟨-, rfl⟩
    · exact ⟨rfl, .inl rfl⟩
    · refine ⟨writeReg_memSize .., ?_⟩
      cases hb : busy s with
      | true => exact .inl (by rw [writeReg_busy (by simpa using hb), setMem_op])
      | false => exact .inr (.inr (.inr ⟨bytes, rfl, rfl⟩))
  | reset =>
    cases hx
    exact ⟨resetBlock_memSize s, .inr (.inl rfl)⟩

/-- Settles O60: a command keeps the operands (`exec_finishes`), and of the host's accesses only the named ones change them. -/
theorem onlyTheHostChangesOperands : Obligations.OnlyTheHostChangesOperands := by
  unfold Obligations.OnlyTheHostChangesOperands
  intro s t hstep
  rcases step_cases s with ⟨i, u, hf, hs⟩ | ⟨a, u, hf, hs⟩ | ⟨-, hs⟩ <;> rw [hs] at hstep
  · obtain ⟨w, -, rfl, hu⟩ := fetch_command hf
    have hkept : u.memSize = s.memSize ∧ u.op = s.op := by rcases hu with rfl | rfl <;> exact ⟨rfl, rfl⟩
    obtain ⟨hsize, hop⟩ := hkept
    obtain ⟨c, b, r, m, rfl, -⟩ := exec_finishes (decodeCommand_ne_wireFrame w.command) hstep
    exact ⟨hsize, fun hne => absurd hop hne⟩
  · obtain ⟨rest, -, hu⟩ := fetch_host hf
    have hkept : u.memSize = s.memSize ∧ u.op = s.op ∧ busy u = busy s := by rcases hu with rfl | rfl <;> exact ⟨rfl, rfl, rfl⟩
    obtain ⟨hsize, hop, hbusy⟩ := hkept
    obtain ⟨hsize', hchange⟩ := hostAccess_operands hstep
    refine ⟨hsize'.trans hsize, fun hne => ⟨u, ?_⟩⟩
    rw [hf]
    rcases hchange with hsame | rfl | ⟨n, v, rfl, hidle⟩ | ⟨bytes, rfl, hidle⟩
    · exact absurd (hsame.trans hop) hne
    · exact .inl rfl
    · exact .inr (.inl ⟨n, v, rfl, hbusy ▸ hidle⟩)
    · exact .inr (.inr ⟨bytes, rfl, hbusy ▸ hidle⟩)
  · cases hstep
    exact ⟨rfl, fun hne => absurd rfl hne⟩

/-! ## The checks before a command's work (R232) -/

/-- A command that is no ENCODE and whose input range is not inside memory does no work (20_memory R55). -/
theorem exec_range_fails {i : Instr} {s : State} (hi : isCommand i = true) (hencode : i ≠ .encode)
    (hout : s.memSize < s.op.base.toNat + s.op.len.toNat) : exec i s = .next (finish .errOperand (beginCommand s)) := by
  have hranged : ∀ work, withInput (beginCommand s) work = finish .errOperand (beginCommand s) := withInput_fails hout
  cases i with
  | crcCcitt => exact congrArg _ (hranged _)
  | crcModbus => exact congrArg _ (hranged _)
  | encode => exact absurd rfl hencode
  | scan => exact exec_scan_fails hout
  | parse => exact congrArg _ (hranged _)
  | check => exact exec_check_fails hout
  | decode => exact exec_decode_fails hout
  | reservedOp0 => cases hi
  | reservedHigh high op => cases hi
  | wireFrame dest src typ payload => cases hi

/-- Settles O39: a reserved word never starts, and ENCODE looks at OP_LEN before its ranges. -/
theorem shellChecksComeInOrder : Obligations.ShellChecksComeInOrder := by
  unfold Obligations.ShellChecksComeInOrder
  refine fun s w hidle => ⟨fun hw => ?_, fun hover => ?_, fun i hi hsize hout => ?_⟩
  · obtain ⟨-, hreserved, -⟩ := reservedWordsFinishWithErrCmd
    exact (hreserved s w hidle hw).1
  · have hcode : encodeCode s = .errOversize := if_pos hover
    exact ⟨_, exec_encode_of_code_ne_ok (by simp [hcode]), hcode, rfl, rfl⟩
  · by_cases hencode : i = .encode
    · subst hencode
      have hcode : encodeCode s = .errOperand := by
        rcases encodeCode_cases s with ⟨-, hover⟩ | ⟨hcode, -⟩ | ⟨-, -, hinside, -⟩
        · rcases hsize with hne | hle
          · exact absurd rfl hne
          · omega
        · exact hcode
        · omega
      exact ⟨_, exec_encode_of_code_ne_ok (by simp [hcode]), ⟨hcode, rfl, rfl⟩, rfl⟩
    · exact ⟨_, exec_range_fails hi hencode hout, ⟨rfl, rfl, rfl⟩, rfl⟩

end Sys2Proof.Machine
end

section
/-! Reset, and a started command's finish (70_reset R260, R262, R280). -/

namespace Sys2Proof.Machine

/-! ## Reset (R260, R262) -/

/-- A reset keeps the host's own side, whatever it cuts off (log 9). -/
theorem resetBlock_hostSide (s : State) : (resetBlock s).program = s.program ∧ (resetBlock s).replies = s.replies := by
  unfold resetBlock abandonCommand
  split <;> exact ⟨rfl, rfl⟩

/-- Only the reset of a running ENCODE touches memory. -/
theorem abandonCommand_not_encode {s : State} (h : encodeRunning s = false) : abandonCommand s = s := by
  simp [abandonCommand, h]

/-- A byte of memory after a reset is as before, or is the cut-off ENCODE's output byte for its place. -/
theorem read_abandonCommand {s : State} (hwf : s.mem.wf = true) (a : Nat) :
    (abandonCommand s).mem.read a = s.mem.read a ∨
      ∃ j, ∃ h : j < (encodeOutput s).length,
        a = s.op.outBase.toNat + j ∧ (abandonCommand s).mem.read a = (encodeOutput s)[j] := by
  unfold abandonCommand
  split
  · exact Memory.read_writeSome hwf
  · exact .inl rfl

/-- ENCODE never writes into its input range, for it refuses ranges that share an address (20_memory R55). -/
theorem encodeOutput_outside_input {s : State} {j : Nat} (hj : j < (encodeOutput s).length) :
    ¬(s.op.base.toNat ≤ s.op.outBase.toNat + j ∧ s.op.outBase.toNat + j < s.op.base.toNat + s.op.len.toNat) := by
  have hok : encodeCode s = .ok := by
    by_contra hc
    simp [encodeOutput_not_ok hc] at hj
  have hlen : (encodeOutput s).length ≤ 25 + s.op.len.toNat := length_encodeOutput_le s
  rcases encodeCode_cases s with ⟨hc, -⟩ | ⟨hc, -⟩ | ⟨-, -, -, -, hdisjoint⟩
  · cases hok.symm.trans hc
  · cases hok.symm.trans hc
  · exact fun hin => hdisjoint _ ⟨by omega, hin⟩

/-- STATUS reads 0 after a reset. -/
theorem statusWord_resetBlock (s : State) : statusWord (resetBlock s) = 0#32 := by
  simp only [statusWord, resetBlock_declbad, resetBlock_code, resetBlock_done, busy_resetBlock]
  decide

/-- Settles O2: memory after a reset is what the abandoned command leaves of it, and an ENCODE's output lies outside its input. -/
theorem resetClearsRegistersAndKeepsMemory : Obligations.ResetClearsRegistersAndKeepsMemory := by
  unfold Obligations.ResetClearsRegistersAndKeepsMemory
  intro s hwf
  obtain ⟨hprogram, hreplies⟩ := resetBlock_hostSide s
  refine ⟨resetBlock s, rfl, rfl, rfl, rfl, statusWord_resetBlock s, resetBlock_memSize s, hprogram, hreplies,
    fun hidle a => ?_, read_abandonCommand hwf, fun a hlo hhi => ?_⟩
  · exact congrArg (fun t => t.mem.read a) (abandonCommand_not_encode hidle)
  · rcases read_abandonCommand hwf a with hsame | ⟨j, hj, rfl, -⟩
    · exact hsame
    · exact absurd ⟨hlo, hhi⟩ (encodeOutput_outside_input hj)

/-! ## The finish of a started command (R280) -/

/-- Settles O56: the block moves, and its command finishes, whatever the word (`exec_finishes`). -/
theorem startedCommandFinishes : Obligations.StartedCommandFinishes := by
  unfold Obligations.StartedCommandFinishes
  intro s k hk hp
  obtain ⟨t, ht⟩ := exec_decodeCommand_next k.command s
  obtain ⟨c, b, r, m, rfl, -⟩ := exec_finishes (decodeCommand_ne_wireFrame _) ht
  have hstep : step s = exec (decodeCommand k.command) s := by rw [step, fetch_busy_waiting hk hp]
  exact ⟨_, hstep.trans ht, rfl, rfl, operandsAndHostKept_finished ..⟩

end Sys2Proof.Machine
end
